-- ==== Sys2Proof/Word.lean ====
section
/-! DEFINITION. The 16-bit word and its plainest arithmetic (spec 00_scope.md R4, R5). -/

namespace Sys2Proof

/-- R5: a word is a 16-bit bit vector; bit 0 is its least significant bit (R4). -/
abbrev Word := BitVec 16

/-- R5: the two's-complement signed value, in -32768..32767. -/
abbrev sint (v : Word) : Int := v.toInt

/-- R5: the unsigned value, in 0..65535. -/
abbrev uint (v : Word) : Nat := v.toNat

/-- R5: the word whose unsigned value is `n mod 65536` (the non-negative remainder). -/
def wrap16 (n : Int) : Word := BitVec.ofInt 16 n

end Sys2Proof
end

