-- ==== Sys2Proof/Config.lean ====
section
/-! DEFINITION. The parameters of the block (spec 00_scope.md R3): the opcode map, the range policy and
the host's two character maps. They are plain data, so a statement about every state is about every
binding of them (Log 2). -/

namespace Sys2Proof

/-- The sixteen instruction forms of R37 and R45. The suffix `RM`, `RR` names the format where one
mnemonic has two forms. -/
inductive Form where
  | ldRM | st | lad | ldRR | adda | suba | andRM | andRR | cpaRM | cpaRR
  | jmi | jze | jump | jpl | ret | svc
deriving DecidableEq, Repr

/-- R44: `OPCODE_MAP` gives each form one 8-bit opcode. -/
structure OpcodeMap where
  ldRM  : BitVec 8
  st    : BitVec 8
  lad   : BitVec 8
  ldRR  : BitVec 8
  adda  : BitVec 8
  suba  : BitVec 8
  andRM : BitVec 8
  andRR : BitVec 8
  cpaRM : BitVec 8
  cpaRR : BitVec 8
  jmi   : BitVec 8
  jze   : BitVec 8
  jump  : BitVec 8
  jpl   : BitVec 8
  ret   : BitVec 8
  svc   : BitVec 8
deriving DecidableEq, Repr

/-- A character as the host names it: its code point (Log 12; spec K5). -/
abbrev HostChar := Nat

/-- One line of input or output text, without a terminator (R87, R91). -/
abbrev Line := List HostChar

/-- R3: the parameters a machine is configured by. `encodeTable` and `decodeTable` list where
`ENCODE_CHAR` and `DECODE_CHAR` differ from the code-point map (Log 12). -/
structure Params where
  opcodes     : OpcodeMap
  strictRange : Bool
  encodeTable : List (HostChar × Word)
  decodeTable : List (Word × HostChar)
deriving DecidableEq, Repr

end Sys2Proof
end

