-- ==== Sys2Proof/Syntax.lean ====
section
/-! DEFINITION. The instructions: one constructor for each row of spec/opcode_table.json, with every
field of the encoding, the ignored ones too (spec 30_encoding.md R36, R37, R43). A register field is the
4-bit field of the word: 8..15 is a legal encoding whose use raises `InvalidRegister` (R9, R48). -/

namespace Sys2Proof

/-- R85: what an SVC asks for. Only sub-types 1 and 2 have address words (R37, format SV). -/
inductive SvcCall where
  /-- sub-type 1: data address, count address -/
  | input  (dA cA : Word)
  /-- sub-type 2: data address, length address -/
  | output (dA cA : Word)
  /-- any other sub-type, one word -/
  | other  (t : BitVec 4)
deriving DecidableEq, Repr

/-- R37: the instruction forms. `r` is bits 7..4, `xf` bits 3..0 of word 0, `adr` is word 1. -/
inductive Instr where
  | ldMem   (r xf : BitVec 4) (adr : Word)
  | st      (r xf : BitVec 4) (adr : Word)
  | lad     (r xf : BitVec 4) (adr : Word)
  | ldReg   (r xf : BitVec 4)
  | addaMem (r xf : BitVec 4) (adr : Word)
  | subaReg (r xf : BitVec 4)
  | andMem  (r xf : BitVec 4) (adr : Word)
  | andReg  (r xf : BitVec 4)
  | cpaMem  (r xf : BitVec 4) (adr : Word)
  | cpaReg  (r xf : BitVec 4)
  | jmi     (r xf : BitVec 4) (adr : Word)
  | jze     (r xf : BitVec 4) (adr : Word)
  | jump    (r xf : BitVec 4) (adr : Word)
  | jpl     (r xf : BitVec 4) (adr : Word)
  | ret     (r xf : BitVec 4)
  | svc     (r : BitVec 4) (call : SvcCall)
deriving DecidableEq, Repr

end Sys2Proof
end

