-- ==== Sys2Proof/WellFormed.lean ====
section
/-! DEFINITION. What a term must satisfy to stand for something the spec describes. -/

namespace Sys2Proof

/-- R44: the sixteen opcodes are pairwise distinct. -/
def OpcodeMap.wellFormed (m : OpcodeMap) : Bool :=
  decide [m.ret, m.ldRM, m.st, m.lad, m.ldRR, m.adda, m.suba, m.andRM, m.andRR, m.cpaRM, m.cpaRR,
    m.jmi, m.jze, m.jump, m.jpl, m.svc].Nodup

/-- R85, R89: `other` stands for a sub-type that is neither 1 nor 2. -/
def SvcCall.wellFormed : SvcCall → Bool
  | .input _ _ => true
  | .output _ _ => true
  | .other t => t != 1#4 && t != 2#4

/-- The instructions that have an encoding. Every register field is a legal encoding (R48), so the
only check is the sub-type of an SVC. -/
def Instr.wellFormed : Instr → Bool
  | .ldMem _ _ _ => true
  | .st _ _ _ => true
  | .lad _ _ _ => true
  | .ldReg _ _ => true
  | .addaMem _ _ _ => true
  | .subaReg _ _ => true
  | .andMem _ _ _ => true
  | .andReg _ _ => true
  | .cpaMem _ _ _ => true
  | .cpaReg _ _ => true
  | .jmi _ _ _ => true
  | .jze _ _ _ => true
  | .jump _ _ _ => true
  | .jpl _ _ _ => true
  | .ret _ _ => true
  | .svc _ call => call.wellFormed

end Sys2Proof
end

