-- ==== Sys2Proof/Decode.lean ====
section
/-! DEFINITION. The instruction word, the decoder (total, rejecting by name) and the encoder
(spec 30_encoding.md R36-R48). The default opcode numbers are here too. -/

namespace Sys2Proof

/-- R45: the default binding of `OPCODE_MAP`, the standard COMET II numbers, which the spec marks as
general knowledge (PRESUMED, Log 1). -/
def OpcodeMap.standard : OpcodeMap where
  ldRM  := 0x10
  st    := 0x11
  lad   := 0x12
  ldRR  := 0x14
  adda  := 0x20
  suba  := 0x25
  andRM := 0x30
  andRR := 0x34
  cpaRM := 0x40
  cpaRR := 0x44
  jmi   := 0x61
  jze   := 0x63
  jump  := 0x64
  jpl   := 0x65
  ret   := 0x81
  svc   := 0xF0

/-- R44: the opcode `OPCODE_MAP` assigns to a form. -/
def OpcodeMap.opcode (m : OpcodeMap) : Form → BitVec 8
  | .ldRM => m.ldRM
  | .st => m.st
  | .lad => m.lad
  | .ldRR => m.ldRR
  | .adda => m.adda
  | .suba => m.suba
  | .andRM => m.andRM
  | .andRR => m.andRR
  | .cpaRM => m.cpaRM
  | .cpaRR => m.cpaRR
  | .jmi => m.jmi
  | .jze => m.jze
  | .jump => m.jump
  | .jpl => m.jpl
  | .ret => m.ret
  | .svc => m.svc

/-- Every form, RET first: the sequencer recognises RET before it looks a handler up (R59). -/
def Form.all : List Form :=
  [.ret, .ldRM, .st, .lad, .ldRR, .adda, .suba, .andRM, .andRR, .cpaRM, .cpaRR,
   .jmi, .jze, .jump, .jpl, .svc]

/-- R46: the form with `OPCODE_MAP(f) = op`, if there is one. -/
def OpcodeMap.formOf (m : OpcodeMap) (op : BitVec 8) : Option Form :=
  Form.all.find? fun f => m.opcode f == op

/-- R36: bits 15..8. -/
def opField (w : Word) : BitVec 8 := w.extractLsb' 8 8

/-- R36: bits 7..4, the source's `gr1()`. -/
def rField (w : Word) : BitVec 4 := w.extractLsb' 4 4

/-- R36: bits 3..0, the source's `gr2OrIndex()`. -/
def xfField (w : Word) : BitVec 4 := w.extractLsb' 0 4

/-- R36, R50: the instruction word, `opcode*256 | gr1*16 | gr2OrIndex`. -/
def packWord (op : BitVec 8) (r xf : BitVec 4) : Word := op ++ r ++ xf

/-- Why words are no instruction. -/
inductive DecodeError where
  /-- there is no word at all -/
  | noWord
  /-- R47: the opcode is not assigned by `OPCODE_MAP` -/
  | undefinedOpcode (op : BitVec 8)
  /-- the words end before the instruction's address words -/
  | missingAddressWord
deriving DecidableEq, Repr

/-- Word 1 as the address word of formats RM and M (R39). -/
def takeAddress (mk : Word → Instr) : List Word → Except DecodeError (Instr × List Word)
  | adr :: rest => .ok (mk adr, rest)
  | [] => .error .missingAddressWord

/-- Words 1 and 2 as the two address words of an SVC of type 1 or 2 (R42). -/
def takeTwoAddresses (mk : Word → Word → SvcCall) (r : BitVec 4) :
    List Word → Except DecodeError (Instr × List Word)
  | dA :: cA :: rest => .ok (.svc r (mk dA cA), rest)
  | _ => .error .missingAddressWord

/-- R37, R42: the sub-type in `xf` says whether two address words follow. -/
def decodeSvc (r xf : BitVec 4) (rest : List Word) : Except DecodeError (Instr × List Word) :=
  if xf = 1#4 then takeTwoAddresses .input r rest
  else if xf = 2#4 then takeTwoAddresses .output r rest
  else .ok (.svc r (.other xf), rest)

/-- R37: the fields and the later words of each form. -/
def decodeForm (f : Form) (r xf : BitVec 4) (rest : List Word) :
    Except DecodeError (Instr × List Word) :=
  match f with
  | .ldRM => takeAddress (.ldMem r xf) rest
  | .st => takeAddress (.st r xf) rest
  | .lad => takeAddress (.lad r xf) rest
  | .ldRR => .ok (.ldReg r xf, rest)
  | .adda => takeAddress (.addaMem r xf) rest
  | .suba => .ok (.subaReg r xf, rest)
  | .andRM => takeAddress (.andMem r xf) rest
  | .andRR => .ok (.andReg r xf, rest)
  | .cpaRM => takeAddress (.cpaMem r xf) rest
  | .cpaRR => .ok (.cpaReg r xf, rest)
  | .jmi => takeAddress (.jmi r xf) rest
  | .jze => takeAddress (.jze r xf) rest
  | .jump => takeAddress (.jump r xf) rest
  | .jpl => takeAddress (.jpl r xf) rest
  | .ret => .ok (.ret r xf, rest)
  | .svc => decodeSvc r xf rest

/-- R46, R47: the instruction at the head of a list of words, with the words after it. -/
def decode (m : OpcodeMap) : List Word → Except DecodeError (Instr × List Word)
  | [] => .error .noWord
  | w :: rest =>
    match m.formOf (opField w) with
    | none => .error (.undefinedOpcode (opField w))
    | some f => decodeForm f (rField w) (xfField w) rest

/-- The number of words of an instruction of form `f` whose index field is `xf`; word 0 alone tells
it (R37, R38). -/
def Form.words (f : Form) (xf : BitVec 4) : Nat :=
  match f with
  | .ldRR => 1
  | .suba => 1
  | .andRR => 1
  | .cpaRR => 1
  | .ret => 1
  | .ldRM => 2
  | .st => 2
  | .lad => 2
  | .adda => 2
  | .andRM => 2
  | .cpaRM => 2
  | .jmi => 2
  | .jze => 2
  | .jump => 2
  | .jpl => 2
  | .svc => if xf = 1#4 ∨ xf = 2#4 then 3 else 1

/-- R85: the sub-type in the index field of an SVC. -/
def SvcCall.subtype : SvcCall → BitVec 4
  | .input _ _ => 1
  | .output _ _ => 2
  | .other t => t

/-- The form of an instruction (R37). -/
def Instr.form : Instr → Form
  | .ldMem _ _ _ => .ldRM
  | .st _ _ _ => .st
  | .lad _ _ _ => .lad
  | .ldReg _ _ => .ldRR
  | .addaMem _ _ _ => .adda
  | .subaReg _ _ => .suba
  | .andMem _ _ _ => .andRM
  | .andReg _ _ => .andRR
  | .cpaMem _ _ _ => .cpaRM
  | .cpaReg _ _ => .cpaRR
  | .jmi _ _ _ => .jmi
  | .jze _ _ _ => .jze
  | .jump _ _ _ => .jump
  | .jpl _ _ _ => .jpl
  | .ret _ _ => .ret
  | .svc _ _ => .svc

/-- Bits 3..0 of word 0 (R36). -/
def Instr.xfBits : Instr → BitVec 4
  | .ldMem _ xf _ => xf
  | .st _ xf _ => xf
  | .lad _ xf _ => xf
  | .ldReg _ xf => xf
  | .addaMem _ xf _ => xf
  | .subaReg _ xf => xf
  | .andMem _ xf _ => xf
  | .andReg _ xf => xf
  | .cpaMem _ xf _ => xf
  | .cpaReg _ xf => xf
  | .jmi _ xf _ => xf
  | .jze _ xf _ => xf
  | .jump _ xf _ => xf
  | .jpl _ xf _ => xf
  | .ret _ xf => xf
  | .svc _ call => call.subtype

/-- The number of words of an instruction (R37). -/
def Instr.words (i : Instr) : Nat := i.form.words i.xfBits

/-- R42, R85: the words of an SVC. -/
def encodeSvc (op : BitVec 8) (r : BitVec 4) : SvcCall → List Word
  | .input dA cA => [packWord op r 1, dA, cA]
  | .output dA cA => [packWord op r 2, dA, cA]
  | .other t => [packWord op r t]

/-- R37, R50: the words of an instruction. -/
def encode (m : OpcodeMap) : Instr → List Word
  | .ldMem r xf adr => [packWord m.ldRM r xf, adr]
  | .st r xf adr => [packWord m.st r xf, adr]
  | .lad r xf adr => [packWord m.lad r xf, adr]
  | .ldReg r xf => [packWord m.ldRR r xf]
  | .addaMem r xf adr => [packWord m.adda r xf, adr]
  | .subaReg r xf => [packWord m.suba r xf]
  | .andMem r xf adr => [packWord m.andRM r xf, adr]
  | .andReg r xf => [packWord m.andRR r xf]
  | .cpaMem r xf adr => [packWord m.cpaRM r xf, adr]
  | .cpaReg r xf => [packWord m.cpaRR r xf]
  | .jmi r xf adr => [packWord m.jmi r xf, adr]
  | .jze r xf adr => [packWord m.jze r xf, adr]
  | .jump r xf adr => [packWord m.jump r xf, adr]
  | .jpl r xf adr => [packWord m.jpl r xf, adr]
  | .ret r xf => [packWord m.ret r xf]
  | .svc r call => encodeSvc m.svc r call

/-- The three words of an instruction laid out in one number, bit 0 the least significant bit of the
first word, a later word's bits counting on (the numbering of spec/opcode_table.json). -/
def tableWords (nbits w : Nat) : List Word :=
  let v := w % 2 ^ nbits
  [BitVec.ofNat 16 v, BitVec.ofNat 16 (v >>> 16), BitVec.ofNat 16 (v >>> 32)]

/-- The instruction the decoder reads, under the default opcode map, from the bits `w` numbered as
spec/opcode_table.json numbers them; the operand words the table gives no bits are zero. -/
def decodeTableWord (nbits w : Nat) : Option Instr :=
  match decode OpcodeMap.standard (tableWords nbits w) with
  | .ok (i, _) => some i
  | .error _ => none

end Sys2Proof
end

