-- ==== Sys2Proof/Machine/State.lean ====
section
/-! DEFINITION. Everything the spec gives the machine, as plain data, and the machine right after reset
(spec 10_state.md R8-R22). -/

namespace Sys2Proof.Machine

/-- R23, R27: one entry of the Word Store: a word address and its word. The smallest addressable unit
is the 16-bit word, so no byte order is chosen (Log 3). -/
abbrev Cell := Nat × Word

/-- R23, R24: the Word Store. Addresses rise strictly and stay below 2^16; no entry holds 0, which is
what an unlisted address reads as (`Memory.wf` in Ops.lean). -/
abbrev Memory := List Cell

/-- R13: the condition flags O (overflow), S (sign), Z (zero). -/
structure Flags where
  o : Bool
  s : Bool
  z : Bool
deriving DecidableEq, Repr

/-- R18: what the unit holds while an SVC type 1 waits for its line. -/
structure PendingInput where
  pc : Word
  dA : Word
  cA : Word
deriving DecidableEq, Repr

/-- R17: the sequencer state. The pending-input context exists exactly in WAIT_INPUT (R18). -/
inductive Seq where
  /-- after reset, before the first `start` -/
  | idle
  /-- the next step fetches the instruction at `pc` -/
  | ready
  /-- an SVC type 1 awaits one line -/
  | waitInput (ctx : PendingInput)
  /-- the last instruction fetched was RET -/
  | halted
  /-- the last instruction raised a fault -/
  | faulted
deriving DecidableEq, Repr

/-- R19, R94: the fault causes, codes 0 to 3 in this order. -/
inductive Cause where
  | none | undefinedOpcode | invalidRegister | rangeViolation
deriving DecidableEq, Repr

/-- R19: the fault record. -/
structure FaultRecord where
  cause : Cause
  fpc   : Word
  fword : Word
  finfo : Int
deriving DecidableEq, Repr

/-- R90, R91: what the unit does on the I/O port. -/
inductive IoEvent where
  /-- the unit asks for one line (R90) -/
  | requestLine
  /-- the unit emits one line of text (R91) -/
  | emit (text : Line)
deriving DecidableEq, Repr

/-- The machine. `params` is fixed for one machine (R3, Log 2); `answers` (the lines the I/O
collaborator will answer, oldest first, Log 10) and `port` (the transactions made on the I/O port,
oldest first, Log 13) are the model's own fields for the far side of the I/O port. -/
structure State where
  params  : Params
  /-- R8: GR0..GR7 -/
  gr      : Vector Word 8
  /-- R11: the program counter -/
  pc      : Word
  /-- R13 -/
  flags   : Flags
  /-- R17, R18 -/
  seq     : Seq
  /-- R19 -/
  fault   : FaultRecord
  /-- R23 -/
  mem     : Memory
  answers : List Line
  port    : List IoEvent
deriving DecidableEq, Repr

/-- Why the machine stops with a fault. The faults the spec names (R94) are not here: taking one is a
next state with `seq = faulted` (R99, Log 9). -/
inductive Fault where
  /-- Raised on delivery of a line that the host's duty forbids (R92, D14): more than 65,535
  characters, or a character without a 16-bit code. The spec says nothing of what follows. Safe: the
  model stops (Log 11). -/
  | hostBrokeLineDuty
deriving DecidableEq, Repr

/-- Why the machine has no meaning for an instruction. -/
inductive Refusal where
  /-- Raised by an arm of `exec` whose instruction has no meaning yet; no arm does. Safe. -/
  | notModelled (mnemonic : String)
deriving DecidableEq, Repr

/-- R3, R45: the default binding of the parameters. -/
def standardParams : Params where
  opcodes := OpcodeMap.standard
  strictRange := false
  encodeTable := []
  decodeTable := []

/-- R22: what reset leaves unspecified: the draws `RESET_GR` and `RESET_FLAGS`, the program counter,
and the fault record but for its cause. -/
structure ResetDraw where
  gr    : Vector Word 8
  flags : Flags
  pc    : Word
  fpc   : Word
  fword : Word
  finfo : Int
deriving DecidableEq, Repr

/-- R22, R110: the machine right after reset, for every binding of the parameters, every draw and every
memory image. -/
def State.resetWith (p : Params) (d : ResetDraw) (image : Memory) : State where
  params := p
  gr := d.gr
  pc := d.pc
  flags := d.flags
  seq := .idle
  fault := { cause := .none, fpc := d.fpc, fword := d.fword, finfo := d.finfo }
  mem := image
  answers := []
  port := []

/-- The draw of `State.reset`: zero throughout (DESIGN CHOICE; the spec gives none. Logs 4 to 7). -/
def zeroDraw : ResetDraw where
  gr := Vector.replicate 8 0
  flags := { o := false, s := false, z := false }
  pc := 0
  fpc := 0
  fword := 0
  finfo := 0

/-- R22: the machine right after reset, with the default parameters, the zero draw and no image. -/
def State.reset : State := State.resetWith standardParams zeroDraw []

end Sys2Proof.Machine
end

