-- ==== Sys2Proof/Machine/Ops.lean ====
section
/-! DEFINITION. The named operations over memory, registers and the sequencer, taking a fault, and the
return from a stop by `start` (spec 20_memory.md, 40_sequencer.md, 60_exceptions.md). -/

namespace Sys2Proof.Machine

/-! ### The Word Store -/

/-- R24: the source's `get(address)`, 0 if never set. -/
def Memory.get : Memory → Nat → Word
  | [], _ => 0
  | (k, v) :: m, a => if k = a then v else Memory.get m a

/-- `(a, v)` put before entries of higher address; a word equal to 0 is not listed (R24). -/
def Memory.consNonzero (a : Nat) (v : Word) (m : Memory) : Memory :=
  if v = 0 then m else (a, v) :: m

/-- R26: the source's `set(address, value)`, keeping the canonical form. -/
def Memory.set : Memory → Nat → Word → Memory
  | [], a, v => Memory.consNonzero a v []
  | (k, w) :: m, a, v =>
    if a < k then Memory.consNonzero a v ((k, w) :: m)
    else if a = k then Memory.consNonzero a v m
    else (k, w) :: Memory.set m a v

/-- The canonical form of the entries at addresses `lo` and above: rising addresses below 2^16, no
entry equal to what an unlisted address reads as. -/
def Memory.wfFrom : Nat → Memory → Bool
  | _, [] => true
  | lo, (k, v) :: m => decide (lo ≤ k) && decide (k < 65536) && v != 0 && Memory.wfFrom (k + 1) m

/-- The canonical form (R23, R24; Log 3): equal memories are equal lists. -/
def Memory.wf (m : Memory) : Bool := Memory.wfFrom 0 m

/-- R25: `MemRead(a, 1)`. -/
def State.memRead (s : State) (a : Word) : Word := s.mem.get (uint a)

/-- R26: `MemWrite(a, 1, v)`. -/
def State.memWrite (s : State) (a v : Word) : State := { s with mem := s.mem.set (uint a) v }

/-! ### Registers, program counter, sequencer state -/

/-- R6: `x[i]`, for a register index that has been checked. -/
def State.reg (s : State) (i : Fin 8) : Word := s.gr[i]

/-- R6: `x[i] <- v`. -/
def State.setReg (s : State) (i : Fin 8) (v : Word) : State := { s with gr := s.gr.set i v }

/-- R6: `pc <- t`. -/
def State.setPc (s : State) (t : Word) : State := { s with pc := t }

/-- R60: the advance `pc <- wrap16(uint(pc) + n)`. -/
def State.advance (s : State) (n : Nat) : State := { s with pc := wrap16 (uint s.pc + n) }

/-- R17: `seq <- q`. -/
def State.setSeq (s : State) (q : Seq) : State := { s with seq := q }

/-- One more transaction on the I/O port (R90, R91). -/
def State.logPort (s : State) (e : IoEvent) : State := { s with port := s.port ++ [e] }

/-- The end of a handler that reported step `n` (R59, R60). -/
def retire (n : Nat) (s : State) : Host.Outcome State Fault Refusal := .next (s.advance n)

/-- The end of a handler that has moved `pc` itself: step 0 (R60). -/
def moved (s : State) : Host.Outcome State Fault Refusal := .next s

/-! ### Faults -/

/-- R94: the faults the block raises, with the information recorded. -/
inductive Trap where
  | undefinedOpcode (op : BitVec 8)
  | invalidRegister (i : BitVec 4)
  | rangeViolation (n : Int)
deriving DecidableEq, Repr

/-- R94: the cause recorded. -/
def Trap.cause : Trap → Cause
  | .undefinedOpcode _ => .undefinedOpcode
  | .invalidRegister _ => .invalidRegister
  | .rangeViolation _ => .rangeViolation

/-- R19, R94: `finfo`: the opcode, the register index, or the out-of-range integer. -/
def Trap.info : Trap → Int
  | .undefinedOpcode op => op.toNat
  | .invalidRegister i => i.toNat
  | .rangeViolation n => n

/-- R19, R94: the numeric cause code. -/
def causeCode : Cause → Nat
  | .none => 0
  | .undefinedOpcode => 1
  | .invalidRegister => 2
  | .rangeViolation => 3

/-- R99: `raise E(info)`, one action: the fault record is written and the unit stops in FAULTED. No
register, flag, memory word or `pc` is written. The instruction word is the word at `pc` (R7). -/
def State.raise (s : State) (t : Trap) : State :=
  { s with
    fault := { cause := t.cause, fpc := s.pc, fword := s.memRead s.pc, finfo := t.info }
    seq := .faulted }

/-- The instruction ends by raising `t` (R99). -/
def trap (t : Trap) (s : State) : Host.Outcome State Fault Refusal := .next (s.raise t)

/-- R101: there is no return from a fault; the way on from every stop is `start(a)` (R55), one action:
`pc <- a; seq <- READY; cause <- 0`. -/
def State.start (s : State) (a : Word) : State :=
  { s with pc := a, seq := .ready, fault := { s.fault with cause := .none } }

/-! ### The I/O port -/

/-- The entry of a table of exceptions for a key, if it has one. -/
def tableEntry {α β : Type} [DecidableEq α] : List (α × β) → α → Option β
  | [], _ => none
  | (k, v) :: t, c => if k = c then some v else tableEntry t c

/-- R3, D14: `ENCODE_CHAR`: the code point, but for the exceptions listed. A character whose code
exceeds 0xFFFF has none: the host must not supply it. -/
def encodeChar (p : Params) (c : HostChar) : Option Word :=
  match tableEntry p.encodeTable c with
  | some w => some w
  | none => if c ≤ 65535 then some (BitVec.ofNat 16 c) else none

/-- R3, D15: `DECODE_CHAR`: the code point, but for the exceptions listed. -/
def decodeChar (p : Params) (w : Word) : HostChar :=
  match tableEntry p.decodeTable w with
  | some c => c
  | none => uint w

/-- The codes of the characters of a line, in order; none if a character has no code. -/
def encodeChars (p : Params) : Line → Option (List Word)
  | [] => some []
  | c :: line =>
    match encodeChar p c, encodeChars p line with
    | some w, some ws => some (w :: ws)
    | _, _ => none

/-- R92: the codes of a line the host's duty allows: at most 65,535 characters, each with a code. -/
def encodeLine (p : Params) (line : Line) : Option (List Word) :=
  if line.length ≤ 65535 then encodeChars p line else none

/-- R87: the codes written at consecutive addresses from `a`, in increasing order, modulo 2^16. -/
def State.writeCodes (s : State) (a : Word) : List Word → State
  | [] => s
  | c :: cs => (s.memWrite a c).writeCodes (a + 1) cs

/-- R88: the words at `n` consecutive addresses from `a`, modulo 2^16. -/
def State.readCodes (s : State) (a : Word) : Nat → List Word
  | 0 => []
  | n + 1 => s.memRead a :: s.readCodes (a + 1) n

/-- R87: the completion of an SVC type 1 with the codes of its line: the characters, then the count,
the context cleared, READY, and the advance by 3. -/
def State.completeInput (s : State) (ctx : PendingInput) (codes : List Word) : State :=
  (((s.writeCodes ctx.dA codes).memWrite ctx.cA (wrap16 codes.length)).setSeq .ready).advance 3

/-- R87, R92: the I/O collaborator's answer to `requestLine()` for the SVC that waits with `ctx`. -/
def deliverLine (ctx : PendingInput) (line : Line) (s : State) :
    Host.Outcome State Fault Refusal :=
  match encodeLine s.params line with
  | some codes => .next (s.completeInput ctx codes)
  | none => .fault .hostBrokeLineDuty

end Sys2Proof.Machine
end

