-- ==== Sys2Proof/Machine/Flags.lean ====
section
/-! DEFINITION. The flag setter (spec 40_sequencer.md R64). -/

namespace Sys2Proof.Machine

/-- R64: the triple for an exact integer: O is 0, S is `n < 0`, Z is `n = 0`. -/
def flagsOf (n : Int) : Flags where
  o := false
  s := decide (n < 0)
  z := decide (n = 0)

/-- R64: `SetFlags(n)`, all three flags at once. -/
def State.setFlags (s : State) (n : Int) : State := { s with flags := flagsOf n }

end Sys2Proof.Machine
end

