-- ==== Sys2Proof/Machine/Operands.lean ====
section
/-! DEFINITION. Every operand form: the register check, the range policy, the effective address, and
how a handler's operands are checked before it writes (spec 40_sequencer.md R61-R65). -/

namespace Sys2Proof.Machine

/-- R62: `CheckReg(i)`: the register a 4-bit field names, or `InvalidRegister`. -/
def checkReg (i : BitVec 4) : Except Trap (Fin 8) :=
  if h : i.toNat < 8 then .ok ⟨i.toNat, h⟩ else .error (.invalidRegister i)

/-- R65: `FitS(n)`, for a signed result. -/
def fitS (strict : Bool) (n : Int) : Except Trap Word :=
  if strict = true ∧ ¬(-32768 ≤ n ∧ n ≤ 32767) then .error (.rangeViolation n) else .ok (wrap16 n)

/-- R65: `FitA(n)`, for an address. -/
def fitA (strict : Bool) (n : Int) : Except Trap Word :=
  if strict = true ∧ ¬(0 ≤ n ∧ n ≤ 65535) then .error (.rangeViolation n) else .ok (wrap16 n)

/-- R63: `EA()` for index field `xf` and address word `adr`. -/
def effectiveAddress (xf : BitVec 4) (adr : Word) (s : State) : Except Trap Word :=
  if xf = 0#4 then fitA s.params.strictRange (uint adr)
  else
    match checkReg xf with
    | .error t => .error t
    | .ok x => fitA s.params.strictRange (uint adr + sint (s.reg x))

/-- A handler goes on with a checked value, or its instruction raises the fault (R61, R99). -/
def proceed {α : Type} (c : Except Trap α) (s : State)
    (k : α → Host.Outcome State Fault Refusal) : Host.Outcome State Fault Refusal :=
  match c with
  | .error t => trap t s
  | .ok v => k v

/-- Format RR: the registers named by `r` and then `xf` (R41, R62). -/
def withRegisters (r xf : BitVec 4) (s : State)
    (k : Fin 8 → Fin 8 → Host.Outcome State Fault Refusal) : Host.Outcome State Fault Refusal :=
  proceed (checkReg r) s fun i => proceed (checkReg xf) s fun j => k i j

/-- Format RM: the register named by `r`, then the effective address (R40, R41, R62). -/
def withRegisterAddress (r xf : BitVec 4) (adr : Word) (s : State)
    (k : Fin 8 → Word → Host.Outcome State Fault Refusal) : Host.Outcome State Fault Refusal :=
  proceed (checkReg r) s fun i => proceed (effectiveAddress xf adr s) s fun a => k i a

/-- Format M: the effective address; field `r` is ignored (R40, R43). -/
def withTarget (xf : BitVec 4) (adr : Word) (s : State)
    (k : Word → Host.Outcome State Fault Refusal) : Host.Outcome State Fault Refusal :=
  proceed (effectiveAddress xf adr s) s k

end Sys2Proof.Machine
end

