-- ==== Sys2Proof/Machine/Arithmetic.lean ====
section
/-! DEFINITION. Arithmetic, logical and compare instructions (spec 42_arithmetic_logic.md R73-R79). -/

namespace Sys2Proof.Machine

/-- A result word goes to a register with the flags of the exact integer `n` (R73). -/
def State.setResult (s : State) (i : Fin 8) (v : Word) (n : Int) : State :=
  (s.setReg i v).setFlags n

/-- R74: AND r1,r2. -/
def execAndReg (r xf : BitVec 4) (s : State) : Host.Outcome State Fault Refusal :=
  withRegisters r xf s fun i j =>
    retire 1 (s.setResult i (s.reg i &&& s.reg j) (sint (s.reg i &&& s.reg j)))

/-- R75: AND r,adr,x. -/
def execAndMem (r xf : BitVec 4) (adr : Word) (s : State) : Host.Outcome State Fault Refusal :=
  withRegisterAddress r xf adr s fun i a =>
    retire 2 (s.setResult i (s.reg i &&& s.memRead a) (sint (s.reg i &&& s.memRead a)))

/-- R76: SUBA r1,r2: the exact difference, fitted to a word; flags from the exact difference. -/
def execSubaReg (r xf : BitVec 4) (s : State) : Host.Outcome State Fault Refusal :=
  withRegisters r xf s fun i j =>
    proceed (fitS s.params.strictRange (sint (s.reg i) - sint (s.reg j))) s fun v =>
      retire 1 (s.setResult i v (sint (s.reg i) - sint (s.reg j)))

/-- R77: ADDA r,adr,x: the exact sum, fitted to a word; flags from the exact sum. -/
def execAddaMem (r xf : BitVec 4) (adr : Word) (s : State) : Host.Outcome State Fault Refusal :=
  withRegisterAddress r xf adr s fun i a =>
    proceed (fitS s.params.strictRange (sint (s.reg i) + sint (s.memRead a))) s fun v =>
      retire 2 (s.setResult i v (sint (s.reg i) + sint (s.memRead a)))

/-- R78: CPA r1,r2: flags from the exact difference, nothing stored. -/
def execCpaReg (r xf : BitVec 4) (s : State) : Host.Outcome State Fault Refusal :=
  withRegisters r xf s fun i j => retire 1 (s.setFlags (sint (s.reg i) - sint (s.reg j)))

/-- R79: CPA r,adr,x. -/
def execCpaMem (r xf : BitVec 4) (adr : Word) (s : State) : Host.Outcome State Fault Refusal :=
  withRegisterAddress r xf adr s fun i a =>
    retire 2 (s.setFlags (sint (s.reg i) - sint (s.memRead a)))

end Sys2Proof.Machine
end

