-- ==== Sys2Proof/Machine/Branch.lean ====
section
/-! DEFINITION. Branch instructions (spec 43_branch.md R80-R84). The target is computed and checked
whether or not the branch is taken (R80); field `r` is ignored (R43). -/

namespace Sys2Proof.Machine

/-- R80: a taken branch moves `pc` and reports step 0; otherwise the step is 2. -/
def branchIf (taken : Bool) (xf : BitVec 4) (adr : Word) (s : State) :
    Host.Outcome State Fault Refusal :=
  withTarget xf adr s fun t => if taken then moved (s.setPc t) else retire 2 s

/-- R81: JUMP adr,x. -/
def execJump (xf : BitVec 4) (adr : Word) (s : State) : Host.Outcome State Fault Refusal :=
  branchIf true xf adr s

/-- R82: JZE adr,x: taken when Z = 1. -/
def execJze (xf : BitVec 4) (adr : Word) (s : State) : Host.Outcome State Fault Refusal :=
  branchIf s.flags.z xf adr s

/-- R83: JMI adr,x: taken when S = 1. -/
def execJmi (xf : BitVec 4) (adr : Word) (s : State) : Host.Outcome State Fault Refusal :=
  branchIf s.flags.s xf adr s

/-- R84: JPL adr,x: taken when S = 0 and Z = 0. -/
def execJpl (xf : BitVec 4) (adr : Word) (s : State) : Host.Outcome State Fault Refusal :=
  branchIf (!s.flags.s && !s.flags.z) xf adr s

end Sys2Proof.Machine
end

