-- ==== Sys2Proof/Machine/LoadStore.lean ====
section
/-! DEFINITION. Load and store instructions (spec 41_load_store.md R69-R72). -/

namespace Sys2Proof.Machine

/-- R69: LD r1,r2. -/
def execLdReg (r xf : BitVec 4) (s : State) : Host.Outcome State Fault Refusal :=
  withRegisters r xf s fun i j =>
    retire 1 ((s.setReg i (s.reg j)).setFlags (sint (s.reg j)))

/-- R70: LD r,adr,x. -/
def execLdMem (r xf : BitVec 4) (adr : Word) (s : State) : Host.Outcome State Fault Refusal :=
  withRegisterAddress r xf adr s fun i a =>
    retire 2 ((s.setReg i (s.memRead a)).setFlags (sint (s.memRead a)))

/-- R71: LAD r,adr,x: the effective address itself, no flags. -/
def execLad (r xf : BitVec 4) (adr : Word) (s : State) : Host.Outcome State Fault Refusal :=
  withRegisterAddress r xf adr s fun i a => retire 2 (s.setReg i a)

/-- R72: ST r,adr,x. -/
def execSt (r xf : BitVec 4) (adr : Word) (s : State) : Host.Outcome State Fault Refusal :=
  withRegisterAddress r xf adr s fun i a => retire 2 (s.memWrite a (s.reg i))

end Sys2Proof.Machine
end

