-- ==== Sys2Proof/Machine/Syscall.lean ====
section
/-! DEFINITION. SVC and RET (spec 44_syscall_halt.md R85-R93). -/

namespace Sys2Proof.Machine

/-- R86: SVC type 1 begins: the context is saved, the unit waits, and one line is requested. -/
def beginInput (dA cA : Word) (s : State) : Host.Outcome State Fault Refusal :=
  moved ((s.setSeq (.waitInput { pc := s.pc, dA := dA, cA := cA })).logPort .requestLine)

/-- R88: the number of characters of an SVC type 2: the word at the length address, read signed, and
none when it is not positive. -/
def outputLength (cA : Word) (s : State) : Nat := (sint (s.memRead cA)).toNat

/-- R88: the text of an SVC type 2. -/
def outputText (dA cA : Word) (s : State) : Line :=
  (s.readCodes dA (outputLength cA s)).map (decodeChar s.params)

/-- R88: SVC type 2: one `emit` of the whole text. -/
def output (dA cA : Word) (s : State) : Host.Outcome State Fault Refusal :=
  retire 3 (s.logPort (.emit (outputText dA cA s)))

/-- R85: SVC by its sub-type; every other sub-type is a one-word no-op (R89). -/
def execSvc (call : SvcCall) (s : State) : Host.Outcome State Fault Refusal :=
  match call with
  | .input dA cA => beginInput dA cA s
  | .output dA cA => output dA cA s
  | .other _ => retire 1 s

/-- R93: RET halts the run; nothing else is written. -/
def execRet (s : State) : Host.Outcome State Fault Refusal := moved (s.setSeq .halted)

end Sys2Proof.Machine
end

