-- ==== Sys2Proof/Machine/Dispatch.lean ====
section
/-! DEFINITION. The handler of each instruction (spec 40_sequencer.md R59): one arm per form. -/

namespace Sys2Proof.Machine

def exec (i : Instr) (s : State) : Host.Outcome State Fault Refusal :=
  match i with
  | .ldMem r xf adr => Sys2Proof.Machine.execLdMem r xf adr s
  | .st r xf adr => Sys2Proof.Machine.execSt r xf adr s
  | .lad r xf adr => Sys2Proof.Machine.execLad r xf adr s
  | .ldReg r xf => Sys2Proof.Machine.execLdReg r xf s
  | .addaMem r xf adr => Sys2Proof.Machine.execAddaMem r xf adr s
  | .subaReg r xf => Sys2Proof.Machine.execSubaReg r xf s
  | .andMem r xf adr => Sys2Proof.Machine.execAndMem r xf adr s
  | .andReg r xf => Sys2Proof.Machine.execAndReg r xf s
  | .cpaMem r xf adr => Sys2Proof.Machine.execCpaMem r xf adr s
  | .cpaReg r xf => Sys2Proof.Machine.execCpaReg r xf s
  | .jmi _ xf adr => Sys2Proof.Machine.execJmi xf adr s
  | .jze _ xf adr => Sys2Proof.Machine.execJze xf adr s
  | .jump _ xf adr => Sys2Proof.Machine.execJump xf adr s
  | .jpl _ xf adr => Sys2Proof.Machine.execJpl xf adr s
  | .ret _ _ => Sys2Proof.Machine.execRet s
  | .svc _ call => Sys2Proof.Machine.execSvc call s

end Sys2Proof.Machine
end

