-- ==== Sys2Proof/Machine/Sequencer.lean ====
section
/-! DEFINITION. What a step does around the handlers: the fetch, the fault of an undefined opcode, and
the continuation of a waiting SVC type 1 (spec 40_sequencer.md R56, R59; 44_syscall_halt.md R87). -/

namespace Sys2Proof.Machine

/-- R35, R59: the words at `pc`, `pc+1`, `pc+2`, modulo 2^16 (R28): an instruction's words, all read
before it writes (R34). Reads have no side effect (R25), so words past a shorter instruction may be
read too (R35). -/
def State.fetchWords (s : State) : List Word :=
  [s.memRead s.pc, s.memRead (s.pc + 1), s.memRead (s.pc + 2)]

/-- R46, R59: the instruction at `pc` under the machine's opcode map. -/
def State.fetch (s : State) : Except DecodeError Instr :=
  match decode s.params.opcodes s.fetchWords with
  | .ok (i, _) => .ok i
  | .error e => .error e

/-- R47, R95: the fault of a fetch whose opcode is not assigned. -/
def undefinedAtPc (s : State) : Host.Outcome State Fault Refusal :=
  trap (.undefinedOpcode (opField (s.memRead s.pc))) s

/-- R56, R87: in WAIT_INPUT no new step begins: the pending one completes when the I/O collaborator
answers. Without an answer nothing changes (R90). -/
def resumeInput (ctx : PendingInput) (s : State) : Host.Outcome State Fault Refusal :=
  match s.answers with
  | [] => .next s
  | line :: rest => deliverLine ctx line { s with answers := rest }

/-- R34: words stored at consecutive addresses by the host. -/
def State.loadWords (s : State) (a : Word) (ws : List Word) : State := s.writeCodes a ws

/-- R112: the host puts an instruction's words where the next fetch reads and starts the unit there
(`start(pc)`, R55). -/
def State.placeAndStart (s : State) (ws : List Word) : State := (s.loadWords s.pc ws).start s.pc

end Sys2Proof.Machine
end

