-- ==== Sys2Proof/Machine/Step.lean ====
section
/-! DEFINITION. One step of the machine (spec 40_sequencer.md R56, R59). -/

namespace Sys2Proof.Machine

/-- One step. In READY: fetch, decode, dispatch (R59). In WAIT_INPUT: the continuation of the step in
progress (R56, R87). In IDLE, HALTED and FAULTED: nothing changes (R56). -/
def step (s : State) : Host.Outcome State Fault Refusal :=
  match s.seq with
  | .ready =>
    match s.fetch with
    | .ok i => exec i s
    | .error _ => undefinedAtPc s
  | .waitInput ctx => resumeInput ctx s
  | .idle => .next s
  | .halted => .next s
  | .faulted => .next s

/-- The instruction with the bits `w` (numbered as spec/opcode_table.json numbers them) stored where the
next step fetches, and the unit started there: the host's load and `start(pc)` of R112 (Log 8). -/
def State.withFetchWord (s : State) (nbits w : Nat) : State := s.placeAndStart (tableWords nbits w)

end Sys2Proof.Machine
end

