-- ==== Sys2Proof/Machine/MemoryPort.lean ====
section
/-! DEFINITION. The memory-port transactions of each instruction, in order (spec 20_memory.md R35). -/

namespace Sys2Proof.Machine

/-- R25, R26: one transaction of the memory port. -/
inductive PortOp where
  | read (a : Word)
  | write (a v : Word)
deriving DecidableEq, Repr

/-- What a list of transactions leaves in the Word Store. -/
def PortOp.applyAll : List PortOp → Memory → Memory
  | [], m => m
  | .read _ :: ops, m => PortOp.applyAll ops m
  | .write a v :: ops, m => PortOp.applyAll ops (m.set (uint a) v)

/-- `n` reads at consecutive addresses from `a`. -/
def readOps (a : Word) : Nat → List PortOp
  | 0 => []
  | n + 1 => .read a :: readOps (a + 1) n

/-- Writes of the codes at consecutive addresses from `a`. -/
def writeOps (a : Word) : List Word → List PortOp
  | [] => []
  | c :: cs => .write a c :: writeOps (a + 1) cs

/-- R35: `F, A1`. -/
def addressOps (s : State) : List PortOp := [.read s.pc, .read (s.pc + 1)]

/-- R35: `F, A1` and then one more transaction at the effective address. An instruction that raises a
fault may leave its reads out and makes no write (R35, R99). -/
def operandOps (r xf : BitVec 4) (adr : Word) (s : State) (k : Fin 8 → Word → PortOp) : List PortOp :=
  match checkReg r, effectiveAddress xf adr s with
  | .ok i, .ok a => addressOps s ++ [k i a]
  | _, _ => addressOps s

/-- R35: an SVC by its sub-type; type 1 up to the wait for the line. -/
def svcOps (call : SvcCall) (s : State) : List PortOp :=
  match call with
  | .input _ _ => addressOps s ++ [.read (s.pc + 2)]
  | .output dA cA =>
    addressOps s ++ [.read (s.pc + 2), .read cA] ++ readOps dA (outputLength cA s)
  | .other _ => [.read s.pc]

/-- R35: the transactions of an instruction at `pc`, in order. -/
def portOps (i : Instr) (s : State) : List PortOp :=
  match i with
  | .ldMem r xf adr => operandOps r xf adr s fun _ a => .read a
  | .st r xf adr => operandOps r xf adr s fun j a => .write a (s.reg j)
  | .lad _ _ _ => addressOps s
  | .ldReg _ _ => [.read s.pc]
  | .addaMem r xf adr => operandOps r xf adr s fun _ a => .read a
  | .subaReg _ _ => [.read s.pc]
  | .andMem r xf adr => operandOps r xf adr s fun _ a => .read a
  | .andReg _ _ => [.read s.pc]
  | .cpaMem r xf adr => operandOps r xf adr s fun _ a => .read a
  | .cpaReg _ _ => [.read s.pc]
  | .jmi _ _ _ => addressOps s
  | .jze _ _ _ => addressOps s
  | .jump _ _ _ => addressOps s
  | .jpl _ _ _ => addressOps s
  | .ret _ _ => [.read s.pc]
  | .svc _ call => svcOps call s

/-- R35: the writes of an SVC type 1 when its line has come: the characters, then the count. -/
def inputOps (ctx : PendingInput) (codes : List Word) : List PortOp :=
  writeOps ctx.dA codes ++ [.write ctx.cA (wrap16 codes.length)]

end Sys2Proof.Machine
end

