-- ==== Sys2Proof/Machine/ControlPort.lean ====
section
/-! DEFINITION. The host's side: the control port (`start`, `step`, `run`), the state access port and
the answer to `requestLine()` (spec 10_state.md R20; 40_sequencer.md R55-R58; 44_syscall_halt.md R87,
R92; 92_eei_decisions.md D6, D7, D16, D23). -/

namespace Sys2Proof.Machine

/-- R20: what the driver reads through the state access port. -/
structure DriverView where
  seq   : Seq
  fault : FaultRecord
  gr    : Vector Word 8
  pc    : Word
  flags : Flags
deriving DecidableEq, Repr

/-- What the host can do to the unit. Nothing else outside the unit changes its state (R102). -/
inductive Command where
  /-- R55 -/
  | start (a : Word)
  /-- R56 -/
  | step
  /-- R20: read the state -/
  | readState
  /-- D23: read a word of the Word Store -/
  | readWord (a : Word)
  /-- R20 -/
  | writeReg (i : Fin 8) (v : Word)
  /-- R20 -/
  | writePc (a : Word)
  /-- R20 -/
  | writeFlags (f : Flags)
  /-- R112, D23: load a word of the program image -/
  | writeWord (a v : Word)
  /-- R87, R92: the I/O collaborator's answer to `requestLine()` -/
  | answer (line : Line)
deriving DecidableEq, Repr

/-- What the host gets back. -/
inductive Reply where
  /-- the command took effect -/
  | accepted
  /-- the command had no effect -/
  | turnedAway
  /-- R56: `step()` returned, with `stillRunning` -/
  | returned (stillRunning : Bool)
  /-- R56, R99: `step()` reported the fault -/
  | reported (record : FaultRecord)
  /-- R56, R86: `step()` has not returned: it waits for a line -/
  | inProgress
  | view (v : DriverView)
  | word (v : Word)
deriving DecidableEq, Repr

/-- R20: the state the driver reads. -/
def State.view (s : State) : DriverView where
  seq := s.seq
  fault := s.fault
  gr := s.gr
  pc := s.pc
  flags := s.flags

/-- R56, R86: an SVC type 1 is waiting for its line. -/
def Seq.waiting : Seq → Bool
  | .waitInput _ => true
  | .idle => false
  | .ready => false
  | .halted => false
  | .faulted => false

/-- R20, D23: the driver may write only in IDLE, HALTED and FAULTED. -/
def Seq.writable : Seq → Bool
  | .idle => true
  | .halted => true
  | .faulted => true
  | .ready => false
  | .waitInput _ => false

/-- R56: what `step()` reports of the instruction it executed, by the sequencer state at its end. -/
def stepReply (t : State) : Reply :=
  match t.seq with
  | .ready => .returned true
  | .faulted => .reported t.fault
  | .waitInput _ => .inProgress
  | .halted => .returned false
  | .idle => .returned false

/-- An outcome of the machine with the reply it gives the host. -/
def withReply (o : Host.Outcome State Fault Refusal) (k : State → Reply) :
    Host.Outcome (State × Reply) Fault Refusal :=
  match o with
  | .next t => .next (t, k t)
  | .fault f => .fault f
  | .refused q => .refused q

/-- A command that takes effect when `allowed`, and is turned away without effect otherwise (Logs 15
to 17). -/
def guarded (allowed : Bool) (s t : State) (r : Reply) : Host.Outcome (State × Reply) Fault Refusal :=
  if allowed then .next (t, r) else .next (s, .turnedAway)

/-- R56: `step()`. -/
def performStep (s : State) : Host.Outcome (State × Reply) Fault Refusal :=
  match s.seq with
  | .ready => withReply (step s) stepReply
  | .waitInput _ => .next (s, .inProgress)
  | .idle => .next (s, .returned false)
  | .halted => .next (s, .returned false)
  | .faulted => .next (s, .returned false)

/-- R56, R87: the answer to `requestLine()` completes the pending step, which returns `true`. -/
def performAnswer (line : Line) (s : State) : Host.Outcome (State × Reply) Fault Refusal :=
  match s.seq with
  | .waitInput ctx => withReply (deliverLine ctx line s) stepReply
  | .ready => .next (s, .turnedAway)
  | .idle => .next (s, .turnedAway)
  | .halted => .next (s, .turnedAway)
  | .faulted => .next (s, .turnedAway)

/-- One action of the host. -/
def perform (c : Command) (s : State) : Host.Outcome (State × Reply) Fault Refusal :=
  match c with
  | .start a => guarded (!s.seq.waiting) s (s.start a) .accepted
  | .step => performStep s
  | .readState => guarded (!s.seq.waiting) s s (.view s.view)
  | .readWord a => guarded (!s.seq.waiting) s s (.word (s.memRead a))
  | .writeReg i v => guarded s.seq.writable s (s.setReg i v) .accepted
  | .writePc a => guarded s.seq.writable s (s.setPc a) .accepted
  | .writeFlags f => guarded s.seq.writable s { s with flags := f } .accepted
  | .writeWord a v => guarded s.seq.writable s (s.memWrite a v) .accepted
  | .answer line => performAnswer line s

/-- R57: whether `run()` goes on: it repeats `step()` while the program runs, and a step in progress
(WAIT_INPUT) has not returned. -/
def Seq.running : Seq → Bool
  | .ready => true
  | .waitInput _ => true
  | .idle => false
  | .halted => false
  | .faulted => false

/-- Go on from the next state, or stop where the machine stops. -/
def andThen (o : Host.Outcome State Fault Refusal) (k : State → Host.Outcome State Fault Refusal) :
    Host.Outcome State Fault Refusal :=
  match o with
  | .next t => k t
  | .fault f => .fault f
  | .refused q => .refused q

/-- R57: `run()`, followed for at most `fuel` steps of the machine. -/
def runFor : Nat → State → Host.Outcome State Fault Refusal
  | 0, s => .next s
  | fuel + 1, s => if s.seq.running then andThen (step s) (runFor fuel) else .next s

/-- R57, R90, R92: `run()` with a host that answers, followed for at most `fuel` actions: in READY a
step, in WAIT_INPUT the answer to the outstanding `requestLine()`. `host n` is the host's answer to
request `n`, counted from 0 at the start of the run; `asked` requests have been answered (Log 19). -/
def runWith (host : Nat → Line) : Nat → Nat → State → Host.Outcome State Fault Refusal
  | 0, _, s => .next s
  | fuel + 1, asked, s =>
    match s.seq with
    | .ready => andThen (step s) (runWith host fuel asked)
    | .waitInput ctx => andThen (deliverLine ctx (host asked) s) (runWith host fuel (asked + 1))
    | .idle => .next s
    | .halted => .next s
    | .faulted => .next s

end Sys2Proof.Machine
end

