-- ==== Sys2Proof/Safety.lean ====
section
/-! DEFINITION. What the whole-machine claims are stated in: the tables of what an instruction reads and
writes (spec 10_state.md R10, R15), the invariant of the machine, the end of a run (40_sequencer.md R58)
and the launch premises (70_reset_and_hazards.md R117). -/

namespace Sys2Proof.Machine

/-- R10: the general register an instruction writes, as the field that names it. -/
def destReg : Instr → Option (BitVec 4)
  | .ldMem r _ _ => some r
  | .st _ _ _ => none
  | .lad r _ _ => some r
  | .ldReg r _ => some r
  | .addaMem r _ _ => some r
  | .subaReg r _ => some r
  | .andMem r _ _ => some r
  | .andReg r _ => some r
  | .cpaMem _ _ _ => none
  | .cpaReg _ _ => none
  | .jmi _ _ _ => none
  | .jze _ _ _ => none
  | .jump _ _ _ => none
  | .jpl _ _ _ => none
  | .ret _ _ => none
  | .svc _ _ => none

/-- R10: "xf as index": read only when it is not 0. -/
def indexFields (xf : BitVec 4) : List (BitVec 4) := if xf = 0#4 then [] else [xf]

/-- R10: the general registers an instruction reads, as the fields that name them. -/
def readRegs : Instr → List (BitVec 4)
  | .ldMem _ xf _ => indexFields xf
  | .st r xf _ => r :: indexFields xf
  | .lad _ xf _ => indexFields xf
  | .ldReg _ xf => [xf]
  | .addaMem r xf _ => r :: indexFields xf
  | .subaReg r xf => [r, xf]
  | .andMem r xf _ => r :: indexFields xf
  | .andReg r xf => [r, xf]
  | .cpaMem r xf _ => r :: indexFields xf
  | .cpaReg r xf => [r, xf]
  | .jmi _ xf _ => indexFields xf
  | .jze _ xf _ => indexFields xf
  | .jump _ xf _ => indexFields xf
  | .jpl _ xf _ => indexFields xf
  | .ret _ _ => []
  | .svc _ _ => []

/-- R15: the instructions that write the flags. -/
def writesFlags : Instr → Bool
  | .ldMem _ _ _ => true
  | .st _ _ _ => false
  | .lad _ _ _ => false
  | .ldReg _ _ => true
  | .addaMem _ _ _ => true
  | .subaReg _ _ => true
  | .andMem _ _ _ => true
  | .andReg _ _ => true
  | .cpaMem _ _ _ => true
  | .cpaReg _ _ => true
  | .jmi _ _ _ => false
  | .jze _ _ _ => false
  | .jump _ _ _ => false
  | .jpl _ _ _ => false
  | .ret _ _ => false
  | .svc _ _ => false

/-- R10, R41: the field `r` of the forms whose rule uses it as a register. -/
def usedR : Instr → Option (BitVec 4)
  | .ldMem r _ _ => some r
  | .st r _ _ => some r
  | .lad r _ _ => some r
  | .ldReg r _ => some r
  | .addaMem r _ _ => some r
  | .subaReg r _ => some r
  | .andMem r _ _ => some r
  | .andReg r _ => some r
  | .cpaMem r _ _ => some r
  | .cpaReg r _ => some r
  | .jmi _ _ _ => none
  | .jze _ _ _ => none
  | .jump _ _ _ => none
  | .jpl _ _ _ => none
  | .ret _ _ => none
  | .svc _ _ => none

/-- R40, R41: the field `xf` of the forms whose rule uses it as a register or an index. -/
def usedXf : Instr → Option (BitVec 4)
  | .ldMem _ xf _ => some xf
  | .st _ xf _ => some xf
  | .lad _ xf _ => some xf
  | .ldReg _ xf => some xf
  | .addaMem _ xf _ => some xf
  | .subaReg _ xf => some xf
  | .andMem _ xf _ => some xf
  | .andReg _ xf => some xf
  | .cpaMem _ xf _ => some xf
  | .cpaReg _ xf => some xf
  | .jmi _ xf _ => some xf
  | .jze _ xf _ => some xf
  | .jump _ xf _ => some xf
  | .jpl _ xf _ => some xf
  | .ret _ _ => none
  | .svc _ _ => none

/-- R37: the index field and the address word of a branch (format M). -/
def branchFields : Instr → Option (BitVec 4 × Word)
  | .ldMem _ _ _ => none
  | .st _ _ _ => none
  | .lad _ _ _ => none
  | .ldReg _ _ => none
  | .addaMem _ _ _ => none
  | .subaReg _ _ => none
  | .andMem _ _ _ => none
  | .andReg _ _ => none
  | .cpaMem _ _ _ => none
  | .cpaReg _ _ => none
  | .jmi _ xf adr => some (xf, adr)
  | .jze _ xf adr => some (xf, adr)
  | .jump _ xf adr => some (xf, adr)
  | .jpl _ xf adr => some (xf, adr)
  | .ret _ _ => none
  | .svc _ _ => none

/-- A field names no register: 8..15 (R9). -/
def namesNoRegister (field : Option (BitVec 4)) : Bool :=
  match field with
  | some i => decide (8 ≤ i.toNat)
  | none => false

/-- R63: the exact integer `EA()` fits to an address: the address word, plus the signed index for an
index field 1..7. -/
def exactAddress (xf : BitVec 4) (adr : Word) (s : State) : Int :=
  if h : xf.toNat < 8 then
    if xf = 0#4 then adr.toNat else adr.toNat + s.gr[xf.toNat].toInt
  else adr.toNat

/-- R65: the exact address raises nothing. -/
abbrev addressFits (xf : BitVec 4) (adr : Word) (s : State) : Prop :=
  s.params.strictRange = true → 0 ≤ exactAddress xf adr s ∧ exactAddress xf adr s ≤ 65535

/-- R65: an exact signed result raises nothing. -/
abbrev resultFits (n : Int) (s : State) : Prop :=
  s.params.strictRange = true → -32768 ≤ n ∧ n ≤ 32767

/-- R63: the address of a memory operand. -/
def operandAddress (xf : BitVec 4) (adr : Word) (s : State) : Word := wrap16 (exactAddress xf adr s)

/-- R18: the pending-input context, which exists exactly in WAIT_INPUT. -/
def Seq.pending : Seq → Option PendingInput
  | .waitInput ctx => some ctx
  | .idle => none
  | .ready => none
  | .halted => none
  | .faulted => none

/-- R18: the context of a waiting SVC type 1 is that of the instruction at `pc`. -/
def Seq.contextAt (s : State) : Seq → Bool
  | .waitInput ctx =>
    ctx.pc == s.pc && ctx.dA == s.memRead (s.pc + 1) && ctx.cA == s.memRead (s.pc + 2)
  | .idle => true
  | .ready => true
  | .halted => true
  | .faulted => true

/-- The invariant of the machine: the Word Store is in canonical form, the opcodes are distinct (R44),
the unit is FAULTED exactly when a cause is recorded (R17, R19, R55, R99), and a pending context is that
of the instruction at `pc` (R18). -/
structure Inv (s : State) : Prop where
  memory   : s.mem.wf = true
  opcodes  : s.params.opcodes.wellFormed = true
  cause    : s.seq = .faulted ↔ s.fault.cause ≠ .none
  context  : s.seq.contextAt s = true

/-- R58: a run has ended. -/
def ended (s : State) : Prop := s.seq = .halted ∨ s.seq = .faulted

/-- R57: the run from `s` ends at `t`. -/
def RunEndsAt (s t : State) : Prop := ∃ fuel, runFor fuel s = .next t ∧ ended t

/-- R117: what a claim about a run names: the address given to `start` (R55), the program image, the
registers and flags that have the value named (every other one holds any draw), and the parameters. -/
structure RunPremises where
  entry  : Word
  image  : Memory
  gr     : List (Fin 8 × Word)
  o      : Option Bool
  s      : Option Bool
  z      : Option Bool
  params : Params
deriving DecidableEq, Repr

/-- R92: the host's duty on the I/O port: each of its answers is a line the unit can take. -/
def HostAnswers (p : Params) (host : Nat → Line) : Prop :=
  ∀ n, (encodeLine p (host n)).isSome = true

/-- R117: the launch premises, at the moment `start(c.entry)` returns, of a claim that names `c`, for a
host that answers request `n` with `host n`. -/
structure Launched (c : RunPremises) (host : Nat → Line) (s : State) : Prop where
  /-- `start` has set `pc` (R55) -/
  entry     : s.pc = c.entry
  /-- (1) -/
  ready     : s.seq = .ready
  /-- (1) -/
  cause     : s.fault.cause = .none
  /-- (2) -/
  inFlight  : s.seq.pending = none
  /-- (3); an address the image does not list reads 0 (R24) -/
  memory    : s.mem = c.image
  /-- (4) -/
  registers : ∀ e ∈ c.gr, s.reg e.1 = e.2
  /-- (4) -/
  overflow  : ∀ b ∈ c.o, s.flags.o = b
  /-- (4) -/
  sign      : ∀ b ∈ c.s, s.flags.s = b
  /-- (4) -/
  zero      : ∀ b ∈ c.z, s.flags.z = b
  /-- (5) -/
  params    : s.params = c.params
  /-- (6) -/
  answers   : HostAnswers s.params host

/-- R117, R58: the run from `s`, with this host, ends normally at `t`: it reaches HALTED. -/
def EndsNormally (host : Nat → Line) (s t : State) : Prop :=
  ∃ fuel, runWith host fuel 0 s = .next t ∧ t.seq = .halted

/-- R58: the run reaches FAULTED. -/
def EndsFaulted (host : Nat → Line) (s t : State) : Prop :=
  ∃ fuel, runWith host fuel 0 s = .next t ∧ t.seq = .faulted

/-- R57: the run goes on for ever. -/
def NeverEnds (host : Nat → Line) (s : State) : Prop :=
  ∀ fuel, ∃ t, runWith host fuel 0 s = .next t ∧ ¬ended t

/-- R117: the claim that every run launched under `c` ends normally, in a state `post` describes. -/
def NormalEndClaim (c : RunPremises) (post : (Nat → Line) → State → State → Prop) : Prop :=
  ∀ (host : Nat → Line) (s : State), Launched c host s → ∃ t, EndsNormally host s t ∧ post host s t

end Sys2Proof.Machine
end

