-- ==== Sys2Proof/Certificates/Slice0/Obligations.lean ====
section
/-! DEFINITION. The statements for the provers. `exactAddress`, `addressFits`, `operandAddress` and
`resultFits` (Safety.lean) are the exact address and the range policy of spec 40_sequencer.md R63 and
R65, written apart from the operand functions the meanings use. -/

open Sys2Proof Sys2Proof.Machine

/-- R36, R37, R45, at words of 95_test_vectors.md; the default opcode numbers are PRESUMED (Log 1). -/
def Obligations.SampleWordsDecodeToTheirInstructions : Prop :=
  decode OpcodeMap.standard [0x1412] = .ok (.ldReg 1 2, []) ∧
  decode OpcodeMap.standard [0x1012, 0x0010] = .ok (.ldMem 1 2 0x0010, []) ∧
  decode OpcodeMap.standard [0x1112, 0x0030] = .ok (.st 1 2 0x0030, []) ∧
  decode OpcodeMap.standard [0x2598] = .ok (.subaReg 9 8, []) ∧
  decode OpcodeMap.standard [0x65F0, 0x0006] = .ok (.jpl 15 0 0x0006, []) ∧
  decode OpcodeMap.standard [0x81FF] = .ok (.ret 15 15, []) ∧
  decode OpcodeMap.standard [0xF001, 0x0040, 0x0050] = .ok (.svc 0 (.input 0x0040 0x0050), []) ∧
  decode OpcodeMap.standard [0xF005, 0x0040] = .ok (.svc 0 (.other 5), [0x0040])

/-- R36, R37, R44, R46: no bit of an encoding is dropped, the ignored fields included. -/
def Obligations.DecodeOfEncodeIsTheInstruction : Prop :=
  ∀ (m : OpcodeMap) (i : Instr) (rest : List Word),
    m.wellFormed = true → i.wellFormed = true →
    decode m (encode m i ++ rest) = .ok (i, rest)

/-- R36, R37, R46: each word has one meaning. -/
def Obligations.EncodeOfDecodeIsTheWords : Prop :=
  ∀ (m : OpcodeMap) (ws rest : List Word) (i : Instr),
    decode m ws = .ok (i, rest) → i.wellFormed = true ∧ encode m i ++ rest = ws

/-- R46, R47. -/
def Obligations.UnassignedOpcodesAreUndefined : Prop :=
  ∀ (m : OpcodeMap) (w : Word) (rest : List Word),
    decode m (w :: rest) = .error (.undefinedOpcode (opField w)) ↔ ∀ f, m.opcode f ≠ opField w

/-- R38 (with the lengths of R37). -/
def Obligations.LengthIsToldByWordZero : Prop :=
  ∀ (m : OpcodeMap) (w : Word) (ws rest : List Word) (i : Instr),
    decode m (w :: ws) = .ok (i, rest) →
    ∃ f, m.formOf (opField w) = some f ∧
      (w :: ws).length = rest.length +
        (match f with
          | .ldRR => 1
          | .suba => 1
          | .andRR => 1
          | .cpaRR => 1
          | .ret => 1
          | .svc => if xfField w = 1#4 ∨ xfField w = 2#4 then 3 else 1
          | .ldRM => 2
          | .st => 2
          | .lad => 2
          | .adda => 2
          | .andRM => 2
          | .cpaRM => 2
          | .jmi => 2
          | .jze => 2
          | .jump => 2
          | .jpl => 2)

/-- R63, R65 (decisions D1, D3); the exact address is that of R63. -/
def Obligations.EffectiveAddressIsBasePlusIndex : Prop :=
  ∀ (xf : BitVec 4) (adr : Word) (s : State),
    (8 ≤ xf.toNat → effectiveAddress xf adr s = .error (.invalidRegister xf)) ∧
    (xf.toNat < 8 → addressFits xf adr s →
      effectiveAddress xf adr s = .ok (wrap16 (exactAddress xf adr s))) ∧
    (xf.toNat < 8 → ¬addressFits xf adr s →
      effectiveAddress xf adr s = .error (.rangeViolation (exactAddress xf adr s))) ∧
    (xf = 0#4 → wrap16 (exactAddress xf adr s) = adr) ∧
    (∀ h : xf.toNat < 8, xf ≠ 0#4 →
      exactAddress xf adr s = adr.toNat + s.gr[xf.toNat].toInt ∧
      wrap16 (exactAddress xf adr s) = adr + s.gr[xf.toNat])

/-- R26. -/
def Obligations.MemoryWriteSetsOneWord : Prop :=
  ∀ (s : State) (a v : Word), s.mem.wf = true →
    (s.memWrite a v).memRead a = v ∧
    (∀ b, b ≠ a → (s.memWrite a v).memRead b = s.memRead b) ∧
    s.memWrite a v = { s with mem := (s.memWrite a v).mem }

/-- R24. -/
def Obligations.UnsetAddressesReadZero : Prop :=
  ∀ (p : Params) (d : ResetDraw) (image : Memory) (a : Word),
    (∀ v, (a.toNat, v) ∉ image) →
    (State.resetWith p d image).memRead a = 0 ∧
    ∀ (bs : List (Word × Word)), (∀ e ∈ bs, e.1 ≠ a) →
      (bs.foldl (fun s e => s.memWrite e.1 e.2) (State.resetWith p d image)).memRead a = 0

/-- R69. The default opcode number is PRESUMED (R45, K2; Log 1). -/
def Obligations.LdRegCopiesAndSetsFlags : Prop :=
  OpcodeMap.standard.ldRR = 0x14 ∧
  ∀ (m : OpcodeMap) (r xf : BitVec 4) (s : State),
    encode m (.ldReg r xf) = [packWord m.ldRR r xf] ∧
    (∀ (hr : r.toNat < 8) (hx : xf.toNat < 8),
      exec (.ldReg r xf) s = .next { s with
        gr := s.gr.set r.toNat s.gr[xf.toNat]
        flags := { o := false, s := decide (s.gr[xf.toNat].toInt < 0), z := decide (s.gr[xf.toNat].toInt = 0) }
        pc := s.pc + 1 }) ∧
    (8 ≤ r.toNat → exec (.ldReg r xf) s = .next (s.raise (.invalidRegister r))) ∧
    (r.toNat < 8 → 8 ≤ xf.toNat →
      exec (.ldReg r xf) s = .next (s.raise (.invalidRegister xf)))

/-- R70 (decisions D1, D3); the address is that of R63. The default opcode number is PRESUMED (R45, K2; Log 1). -/
def Obligations.LdMemLoadsAndSetsFlags : Prop :=
  OpcodeMap.standard.ldRM = 0x10 ∧
  ∀ (m : OpcodeMap) (r xf : BitVec 4) (adr : Word) (s : State),
    encode m (.ldMem r xf adr) = [packWord m.ldRM r xf, adr] ∧
    (∀ (hr : r.toNat < 8), xf.toNat < 8 → addressFits xf adr s →
      exec (.ldMem r xf adr) s = .next { s with
        gr := s.gr.set r.toNat (s.memRead (operandAddress xf adr s))
        flags := { o := false, s := decide ((s.memRead (operandAddress xf adr s)).toInt < 0), z := decide ((s.memRead (operandAddress xf adr s)).toInt = 0) }
        pc := s.pc + 2 }) ∧
    (8 ≤ r.toNat → exec (.ldMem r xf adr) s = .next (s.raise (.invalidRegister r))) ∧
    (r.toNat < 8 → 8 ≤ xf.toNat →
      exec (.ldMem r xf adr) s = .next (s.raise (.invalidRegister xf))) ∧
    (r.toNat < 8 → xf.toNat < 8 → ¬addressFits xf adr s →
      exec (.ldMem r xf adr) s = .next (s.raise (.rangeViolation (exactAddress xf adr s))))

/-- R71 (decisions D1, D3); the address is that of R63. The default opcode number is PRESUMED (R45, K2; Log 1). -/
def Obligations.LadLoadsTheAddress : Prop :=
  OpcodeMap.standard.lad = 0x12 ∧
  ∀ (m : OpcodeMap) (r xf : BitVec 4) (adr : Word) (s : State),
    encode m (.lad r xf adr) = [packWord m.lad r xf, adr] ∧
    (∀ (hr : r.toNat < 8), xf.toNat < 8 → addressFits xf adr s →
      exec (.lad r xf adr) s = .next { s with
        gr := s.gr.set r.toNat (operandAddress xf adr s)
        pc := s.pc + 2 }) ∧
    (8 ≤ r.toNat → exec (.lad r xf adr) s = .next (s.raise (.invalidRegister r))) ∧
    (r.toNat < 8 → 8 ≤ xf.toNat →
      exec (.lad r xf adr) s = .next (s.raise (.invalidRegister xf))) ∧
    (r.toNat < 8 → xf.toNat < 8 → ¬addressFits xf adr s →
      exec (.lad r xf adr) s = .next (s.raise (.rangeViolation (exactAddress xf adr s))))

/-- R72; what a write leaves is stated by MemoryWriteSetsOneWord. The default opcode number is PRESUMED (R45, K2; Log 1). -/
def Obligations.StStoresTheRegister : Prop :=
  OpcodeMap.standard.st = 0x11 ∧
  ∀ (m : OpcodeMap) (r xf : BitVec 4) (adr : Word) (s : State),
    encode m (.st r xf adr) = [packWord m.st r xf, adr] ∧
    (∀ (hr : r.toNat < 8), xf.toNat < 8 → addressFits xf adr s →
      exec (.st r xf adr) s = .next { s with
        mem := s.mem.set (operandAddress xf adr s).toNat s.gr[r.toNat]
        pc := s.pc + 2 }) ∧
    (8 ≤ r.toNat → exec (.st r xf adr) s = .next (s.raise (.invalidRegister r))) ∧
    (r.toNat < 8 → 8 ≤ xf.toNat →
      exec (.st r xf adr) s = .next (s.raise (.invalidRegister xf))) ∧
    (r.toNat < 8 → xf.toNat < 8 → ¬addressFits xf adr s →
      exec (.st r xf adr) s = .next (s.raise (.rangeViolation (exactAddress xf adr s))))

/-- R74. The default opcode number is PRESUMED (R45, K2; Log 1). -/
def Obligations.AndRegMasksAndSetsFlags : Prop :=
  OpcodeMap.standard.andRR = 0x34 ∧
  ∀ (m : OpcodeMap) (r xf : BitVec 4) (s : State),
    encode m (.andReg r xf) = [packWord m.andRR r xf] ∧
    (∀ (hr : r.toNat < 8) (hx : xf.toNat < 8),
      exec (.andReg r xf) s = .next { s with
        gr := s.gr.set r.toNat (s.gr[r.toNat] &&& s.gr[xf.toNat])
        flags := { o := false, s := decide ((s.gr[r.toNat] &&& s.gr[xf.toNat]).toInt < 0), z := decide ((s.gr[r.toNat] &&& s.gr[xf.toNat]).toInt = 0) }
        pc := s.pc + 1 }) ∧
    (8 ≤ r.toNat → exec (.andReg r xf) s = .next (s.raise (.invalidRegister r))) ∧
    (r.toNat < 8 → 8 ≤ xf.toNat →
      exec (.andReg r xf) s = .next (s.raise (.invalidRegister xf)))

/-- R75 (decisions D1, D3); the address is that of R63. The default opcode number is PRESUMED (R45, K2; Log 1). -/
def Obligations.AndMemMasksAndSetsFlags : Prop :=
  OpcodeMap.standard.andRM = 0x30 ∧
  ∀ (m : OpcodeMap) (r xf : BitVec 4) (adr : Word) (s : State),
    encode m (.andMem r xf adr) = [packWord m.andRM r xf, adr] ∧
    (∀ (hr : r.toNat < 8), xf.toNat < 8 → addressFits xf adr s →
      exec (.andMem r xf adr) s = .next { s with
        gr := s.gr.set r.toNat (s.gr[r.toNat] &&& (s.memRead (operandAddress xf adr s)))
        flags := { o := false, s := decide ((s.gr[r.toNat] &&& (s.memRead (operandAddress xf adr s))).toInt < 0), z := decide ((s.gr[r.toNat] &&& (s.memRead (operandAddress xf adr s))).toInt = 0) }
        pc := s.pc + 2 }) ∧
    (8 ≤ r.toNat → exec (.andMem r xf adr) s = .next (s.raise (.invalidRegister r))) ∧
    (r.toNat < 8 → 8 ≤ xf.toNat →
      exec (.andMem r xf adr) s = .next (s.raise (.invalidRegister xf))) ∧
    (r.toNat < 8 → xf.toNat < 8 → ¬addressFits xf adr s →
      exec (.andMem r xf adr) s = .next (s.raise (.rangeViolation (exactAddress xf adr s))))

/-- R76 (decisions D2, D3). The default opcode number is PRESUMED (R45, K2; Log 1). -/
def Obligations.SubaWrapsAndFlagsTheExactDifference : Prop :=
  OpcodeMap.standard.suba = 0x25 ∧
  ∀ (m : OpcodeMap) (r xf : BitVec 4) (s : State),
    encode m (.subaReg r xf) = [packWord m.suba r xf] ∧
    (∀ (hr : r.toNat < 8) (hx : xf.toNat < 8),
      resultFits (s.gr[r.toNat].toInt - s.gr[xf.toNat].toInt) s →
      exec (.subaReg r xf) s = .next { s with
        gr := s.gr.set r.toNat (wrap16 (s.gr[r.toNat].toInt - s.gr[xf.toNat].toInt))
        flags := { o := false, s := decide ((s.gr[r.toNat].toInt - s.gr[xf.toNat].toInt) < 0), z := decide ((s.gr[r.toNat].toInt - s.gr[xf.toNat].toInt) = 0) }
        pc := s.pc + 1 }) ∧
    (∀ (hr : r.toNat < 8) (hx : xf.toNat < 8),
      ¬resultFits (s.gr[r.toNat].toInt - s.gr[xf.toNat].toInt) s →
      exec (.subaReg r xf) s =
        .next (s.raise (.rangeViolation (s.gr[r.toNat].toInt - s.gr[xf.toNat].toInt)))) ∧
    (8 ≤ r.toNat → exec (.subaReg r xf) s = .next (s.raise (.invalidRegister r))) ∧
    (r.toNat < 8 → 8 ≤ xf.toNat →
      exec (.subaReg r xf) s = .next (s.raise (.invalidRegister xf)))

/-- R77 (decisions D1, D2, D3); the address is that of R63. The default opcode number is PRESUMED (R45, K2; Log 1). -/
def Obligations.AddaWrapsAndFlagsTheExactSum : Prop :=
  OpcodeMap.standard.adda = 0x20 ∧
  ∀ (m : OpcodeMap) (r xf : BitVec 4) (adr : Word) (s : State),
    encode m (.addaMem r xf adr) = [packWord m.adda r xf, adr] ∧
    (∀ (hr : r.toNat < 8), xf.toNat < 8 → addressFits xf adr s →
      resultFits (s.gr[r.toNat].toInt + (s.memRead (operandAddress xf adr s)).toInt) s →
      exec (.addaMem r xf adr) s = .next { s with
        gr := s.gr.set r.toNat (wrap16 (s.gr[r.toNat].toInt + (s.memRead (operandAddress xf adr s)).toInt))
        flags := { o := false, s := decide ((s.gr[r.toNat].toInt + (s.memRead (operandAddress xf adr s)).toInt) < 0), z := decide ((s.gr[r.toNat].toInt + (s.memRead (operandAddress xf adr s)).toInt) = 0) }
        pc := s.pc + 2 }) ∧
    (∀ (hr : r.toNat < 8), xf.toNat < 8 → addressFits xf adr s →
      ¬resultFits (s.gr[r.toNat].toInt + (s.memRead (operandAddress xf adr s)).toInt) s →
      exec (.addaMem r xf adr) s =
        .next (s.raise (.rangeViolation (s.gr[r.toNat].toInt + (s.memRead (operandAddress xf adr s)).toInt)))) ∧
    (8 ≤ r.toNat → exec (.addaMem r xf adr) s = .next (s.raise (.invalidRegister r))) ∧
    (r.toNat < 8 → 8 ≤ xf.toNat →
      exec (.addaMem r xf adr) s = .next (s.raise (.invalidRegister xf))) ∧
    (r.toNat < 8 → xf.toNat < 8 → ¬addressFits xf adr s →
      exec (.addaMem r xf adr) s = .next (s.raise (.rangeViolation (exactAddress xf adr s))))

/-- R78 (decision D2). The default opcode number is PRESUMED (R45, K2; Log 1). -/
def Obligations.CpaRegFlagsTheExactDifference : Prop :=
  OpcodeMap.standard.cpaRR = 0x44 ∧
  ∀ (m : OpcodeMap) (r xf : BitVec 4) (s : State),
    encode m (.cpaReg r xf) = [packWord m.cpaRR r xf] ∧
    (∀ (hr : r.toNat < 8) (hx : xf.toNat < 8),
      exec (.cpaReg r xf) s = .next { s with
        flags := { o := false, s := decide ((s.gr[r.toNat].toInt - s.gr[xf.toNat].toInt) < 0), z := decide ((s.gr[r.toNat].toInt - s.gr[xf.toNat].toInt) = 0) }
        pc := s.pc + 1 }) ∧
    (8 ≤ r.toNat → exec (.cpaReg r xf) s = .next (s.raise (.invalidRegister r))) ∧
    (r.toNat < 8 → 8 ≤ xf.toNat →
      exec (.cpaReg r xf) s = .next (s.raise (.invalidRegister xf)))

/-- R79 (decisions D1, D2, D3); the address is that of R63. The default opcode number is PRESUMED (R45, K2; Log 1). -/
def Obligations.CpaMemFlagsTheExactDifference : Prop :=
  OpcodeMap.standard.cpaRM = 0x40 ∧
  ∀ (m : OpcodeMap) (r xf : BitVec 4) (adr : Word) (s : State),
    encode m (.cpaMem r xf adr) = [packWord m.cpaRM r xf, adr] ∧
    (∀ (hr : r.toNat < 8), xf.toNat < 8 → addressFits xf adr s →
      exec (.cpaMem r xf adr) s = .next { s with
        flags := { o := false, s := decide ((s.gr[r.toNat].toInt - (s.memRead (operandAddress xf adr s)).toInt) < 0), z := decide ((s.gr[r.toNat].toInt - (s.memRead (operandAddress xf adr s)).toInt) = 0) }
        pc := s.pc + 2 }) ∧
    (8 ≤ r.toNat → exec (.cpaMem r xf adr) s = .next (s.raise (.invalidRegister r))) ∧
    (r.toNat < 8 → 8 ≤ xf.toNat →
      exec (.cpaMem r xf adr) s = .next (s.raise (.invalidRegister xf))) ∧
    (r.toNat < 8 → xf.toNat < 8 → ¬addressFits xf adr s →
      exec (.cpaMem r xf adr) s = .next (s.raise (.rangeViolation (exactAddress xf adr s))))

/-- R81, R80 (decision D12). The default opcode number is PRESUMED (R45, K2; Log 1). -/
def Obligations.JumpGoesToTheTarget : Prop :=
  OpcodeMap.standard.jump = 0x64 ∧
  ∀ (m : OpcodeMap) (r xf : BitVec 4) (adr : Word) (s : State),
    encode m (.jump r xf adr) = [packWord m.jump r xf, adr] ∧
    (xf.toNat < 8 → addressFits xf adr s →
      exec (.jump r xf adr) s = .next { s with pc := operandAddress xf adr s }) ∧
    (8 ≤ xf.toNat → exec (.jump r xf adr) s = .next (s.raise (.invalidRegister xf))) ∧
    (xf.toNat < 8 → ¬addressFits xf adr s →
      exec (.jump r xf adr) s = .next (s.raise (.rangeViolation (exactAddress xf adr s))))

/-- R82 (decisions D1, D3, D12). The default opcode number is PRESUMED (R45, K2; Log 1). -/
def Obligations.JzeBranchesOnZero : Prop :=
  OpcodeMap.standard.jze = 0x63 ∧
  ∀ (m : OpcodeMap) (r xf : BitVec 4) (adr : Word) (s : State),
    encode m (.jze r xf adr) = [packWord m.jze r xf, adr] ∧
    (xf.toNat < 8 → addressFits xf adr s → s.flags.z = true →
      exec (.jze r xf adr) s = .next { s with pc := operandAddress xf adr s }) ∧
    (xf.toNat < 8 → addressFits xf adr s → s.flags.z = false →
      exec (.jze r xf adr) s = .next { s with pc := s.pc + 2 }) ∧
    (8 ≤ xf.toNat → exec (.jze r xf adr) s = .next (s.raise (.invalidRegister xf))) ∧
    (xf.toNat < 8 → ¬addressFits xf adr s →
      exec (.jze r xf adr) s = .next (s.raise (.rangeViolation (exactAddress xf adr s))))

/-- R83 (decisions D1, D3, D12); its corner case is CompareThenBranch. The default opcode number is PRESUMED (R45, K2; Log 1). -/
def Obligations.JmiBranchesOnSign : Prop :=
  OpcodeMap.standard.jmi = 0x61 ∧
  ∀ (m : OpcodeMap) (r xf : BitVec 4) (adr : Word) (s : State),
    encode m (.jmi r xf adr) = [packWord m.jmi r xf, adr] ∧
    (xf.toNat < 8 → addressFits xf adr s → s.flags.s = true →
      exec (.jmi r xf adr) s = .next { s with pc := operandAddress xf adr s }) ∧
    (xf.toNat < 8 → addressFits xf adr s → s.flags.s = false →
      exec (.jmi r xf adr) s = .next { s with pc := s.pc + 2 }) ∧
    (8 ≤ xf.toNat → exec (.jmi r xf adr) s = .next (s.raise (.invalidRegister xf))) ∧
    (xf.toNat < 8 → ¬addressFits xf adr s →
      exec (.jmi r xf adr) s = .next (s.raise (.rangeViolation (exactAddress xf adr s))))

/-- R84 (decisions D1, D3, D12); its corner case after CPA is CompareThenBranch. The default opcode number is PRESUMED (R45, K2; Log 1). -/
def Obligations.JplBranchesOnPlus : Prop :=
  OpcodeMap.standard.jpl = 0x65 ∧
  ∀ (m : OpcodeMap) (r xf : BitVec 4) (adr : Word) (s : State),
    encode m (.jpl r xf adr) = [packWord m.jpl r xf, adr] ∧
    (xf.toNat < 8 → addressFits xf adr s → s.flags.s = false → s.flags.z = false →
      exec (.jpl r xf adr) s = .next { s with pc := operandAddress xf adr s }) ∧
    (xf.toNat < 8 → addressFits xf adr s → (s.flags.s = true ∨ s.flags.z = true) →
      exec (.jpl r xf adr) s = .next { s with pc := s.pc + 2 }) ∧
    (8 ≤ xf.toNat → exec (.jpl r xf adr) s = .next (s.raise (.invalidRegister xf))) ∧
    (xf.toNat < 8 → ¬addressFits xf adr s →
      exec (.jpl r xf adr) s = .next (s.raise (.rangeViolation (exactAddress xf adr s))))

/-- R93; what later steps do is StoppedUnitsDoNotStep. The default opcode number is PRESUMED (R45, K2; Log 1). -/
def Obligations.RetHalts : Prop :=
  OpcodeMap.standard.ret = 0x81 ∧
  ∀ (m : OpcodeMap) (r xf : BitVec 4) (s : State),
    encode m (.ret r xf) = [packWord m.ret r xf] ∧
    exec (.ret r xf) s = .next { s with seq := .halted }

/-- R89. -/
def Obligations.SvcOtherIsOneWordNoOp : Prop :=
  ∀ (m : OpcodeMap) (r t : BitVec 4) (s : State), t ≠ 1#4 → t ≠ 2#4 →
    encode m (.svc r (.other t)) = [packWord m.svc r t] ∧
    (.svc r (.other t) : Instr).wellFormed = true ∧
    exec (.svc r (.other t)) s = .next { s with pc := s.pc + 1 }

/-- R85, R86, R90 (decisions D13, D16). The default opcode number is PRESUMED (R45, K2; Log 1). -/
def Obligations.SvcInputBeginsToWait : Prop :=
  OpcodeMap.standard.svc = 0xF0 ∧
  ∀ (m : OpcodeMap) (r : BitVec 4) (dA cA : Word) (s : State),
    encode m (.svc r (.input dA cA)) = [packWord m.svc r 1, dA, cA] ∧
    exec (.svc r (.input dA cA)) s = .next { s with
      seq := .waitInput { pc := s.pc, dA := dA, cA := cA }
      port := s.port ++ [.requestLine] }

/-- R56, R90; the stop is the model's choice (Log 11). -/
def Obligations.SvcInputWaitsWithoutAnAnswer : Prop :=
  ∀ (s : State) (ctx : PendingInput), s.seq = .waitInput ctx →
    (s.answers = [] → step s = .next s) ∧
    (∀ line rest, s.answers = line :: rest → encodeLine s.params line = none →
      step s = .fault .hostBrokeLineDuty)

/-- R87 (decision D14): the count is written last. -/
def Obligations.SvcInputWritesTheLineThenTheCount : Prop :=
  ∀ (s : State) (ctx : PendingInput) (line : Line) (rest : List Line) (codes : List Word),
    s.seq = .waitInput ctx → s.mem.wf = true → s.answers = line :: rest →
    encodeLine s.params line = some codes →
    ∃ t, step s = .next t ∧
      t.seq = .ready ∧ t.pc = s.pc + 3 ∧ t.answers = rest ∧
      t.gr = s.gr ∧ t.flags = s.flags ∧ t.fault = s.fault ∧ t.params = s.params ∧ t.port = s.port ∧
      t.memRead ctx.cA = BitVec.ofNat 16 codes.length ∧
      (∀ (k : Nat) (h : k < codes.length), ctx.dA + BitVec.ofNat 16 k ≠ ctx.cA →
        t.memRead (ctx.dA + BitVec.ofNat 16 k) = codes[k]) ∧
      (∀ b, b ≠ ctx.cA → (∀ k < codes.length, b ≠ ctx.dA + BitVec.ofNat 16 k) →
        t.memRead b = s.memRead b)

/-- R87, R92 (decision D14); the default code point is PRESUMED by the spec (K5, Log 12). -/
def Obligations.EncodedLinesAreTheCodesInOrder : Prop :=
  (∀ (p : Params) (line : Line) (codes : List Word),
    encodeLine p line = some codes ↔
      line.length ≤ 65535 ∧ line.map (encodeChar p) = codes.map some) ∧
  (∀ (p : Params) (c : HostChar), p.encodeTable = [] →
    encodeChar p c = if c ≤ 65535 then some (BitVec.ofNat 16 c) else none)

/-- R88, R91 (decisions D13, D15). -/
def Obligations.SvcOutputEmitsTheWholeText : Prop :=
  ∀ (m : OpcodeMap) (r : BitVec 4) (dA cA : Word) (s : State),
    encode m (.svc r (.output dA cA)) = [packWord m.svc r 2, dA, cA] ∧
    exec (.svc r (.output dA cA)) s = .next { s with
      port := s.port ++ [.emit ((List.range (s.memRead cA).toInt.toNat).map fun k =>
        decodeChar s.params (s.memRead (dA + BitVec.ofNat 16 k)))]
      pc := s.pc + 3 }

/-- R59, R28. -/
def Obligations.StepRunsTheDecodedInstruction : Prop :=
  ∀ (s : State) (i : Instr) (rest : List Word),
    s.seq = .ready → s.params.opcodes.wellFormed = true → i.wellFormed = true →
    [s.memRead s.pc, s.memRead (s.pc + 1), s.memRead (s.pc + 2)] =
      encode s.params.opcodes i ++ rest →
    step s = exec i s

/-- R95; the record is that of R99 (decision D10). -/
def Obligations.UndefinedOpcodeFaultsAtTheFetch : Prop :=
  ∀ s : State, s.seq = .ready →
    (∀ f, s.params.opcodes.opcode f ≠ opField (s.memRead s.pc)) →
    step s = .next { s with
      seq := .faulted
      fault := {
        cause := .undefinedOpcode
        fpc := s.pc
        fword := s.memRead s.pc
        finfo := (opField (s.memRead s.pc)).toNat } }

/-- R56, R58 (decisions D6, D28). -/
def Obligations.StoppedUnitsDoNotStep : Prop :=
  ∀ s : State, s.seq = .idle ∨ s.seq = .halted ∨ s.seq = .faulted →
    step s = .next s ∧ perform .step s = .next (s, .returned false)

/-- R112, R34 (Log 8). -/
def Obligations.PlacedInstructionRunsNext : Prop :=
  ∀ (s : State) (i : Instr),
    s.mem.wf = true → s.params.opcodes.wellFormed = true → i.wellFormed = true →
    step (s.placeAndStart (encode s.params.opcodes i)) =
      exec i (s.placeAndStart (encode s.params.opcodes i))

/-- R94, R99 (decisions D8, D10). -/
def Obligations.RaiseRecordsAndStopsPrecisely : Prop :=
  (∀ (s : State) (t : Trap),
    s.raise t = { s with
      seq := .faulted
      fault := { cause := t.cause, fpc := s.pc, fword := s.memRead s.pc, finfo := t.info } }) ∧
  (∀ op : BitVec 8, causeCode (Trap.undefinedOpcode op).cause = 1 ∧
    (Trap.undefinedOpcode op).info = op.toNat) ∧
  (∀ i : BitVec 4, causeCode (Trap.invalidRegister i).cause = 2 ∧
    (Trap.invalidRegister i).info = i.toNat) ∧
  (∀ n : Int, causeCode (Trap.rangeViolation n).cause = 3 ∧ (Trap.rangeViolation n).info = n)

/-- R96, R100 (decisions D9, D11). -/
def Obligations.FaultOrderIsRThenXf : Prop :=
  ∀ (i : Instr) (s : State),
    (∀ r, usedR i = some r → 8 ≤ r.toNat → exec i s = .next (s.raise (.invalidRegister r))) ∧
    (∀ xf, namesNoRegister (usedR i) = false → usedXf i = some xf → 8 ≤ xf.toNat →
      exec i s = .next (s.raise (.invalidRegister xf)))

/-- R99 (decisions D8, D10), R61, R68. -/
def Obligations.FaultedStepsArePrecise : Prop :=
  ∀ s t : State, s.seq = .ready → step s = .next t → t.seq = .faulted →
    t = { s with seq := .faulted, fault := t.fault } ∧
    t.fault.cause ≠ .none ∧ t.fault.fpc = s.pc ∧ t.fault.fword = s.memRead s.pc

/-- R97 (decision D3). -/
def Obligations.RangeViolationNeedsStrictRange : Prop :=
  ∀ s t : State, s.seq = .ready → s.params.strictRange = false →
    s.fault.cause ≠ .rangeViolation → step s = .next t → t.fault.cause ≠ .rangeViolation

/-- R59, R99; that a fault is a next state is the model's reading (Log 9). -/
def Obligations.EveryInstructionAnswersANextState : Prop :=
  ∀ (i : Instr) (s : State), ∃ t, exec i s = .next t

/-- R10: the frame of the general registers. -/
def Obligations.OnlyTheDestinationRegisterChanges : Prop :=
  ∀ (i : Instr) (s t : State), exec i s = .next t →
    ∀ k : Fin 8, (∀ d, destReg i = some d → (k : Nat) ≠ d.toNat) → t.gr[k] = s.gr[k]

/-- R14, R16; the writers are those of R15. -/
def Obligations.FlagsChangeOnlyAsTheTableSays : Prop :=
  ∀ (i : Instr) (s t : State), exec i s = .next t →
    (writesFlags i = false → t.flags = s.flags) ∧
    (writesFlags i = true →
      (t.flags = { o := false, s := false, z := false } ∨
        t.flags = { o := false, s := false, z := true } ∨
        t.flags = { o := false, s := true, z := false }) ∨
      ∃ tr, t = s.raise tr)

/-- R35, R72: the frame of the Word Store, for `exec`. An SVC type 1 stores its line and its count when it
completes (R87), which is not `exec`: SvcInputWritesTheLineThenTheCount (O27) and
MemoryFollowsThePortTransactions (O49) state that. -/
def Obligations.OnlyStStoresAndOnlyAtItsAddress : Prop :=
  (∀ (r xf : BitVec 4) (adr : Word) (s t : State), exec (.st r xf adr) s = .next t →
    (∀ a, effectiveAddress xf adr s = .ok a → ∀ b, b ≠ a → t.memRead b = s.memRead b) ∧
    (∀ tr, effectiveAddress xf adr s = .error tr → ∀ b, t.memRead b = s.memRead b)) ∧
  (∀ (i : Instr) (s t : State), (∀ r xf adr, i ≠ .st r xf adr) → exec i s = .next t →
    ∀ b, t.memRead b = s.memRead b)

/-- R59, R61, R90, R91, R93: the frame of the rest of the state, for `exec`. The completion of an SVC type 1
(R87) is not `exec`: SvcInputWritesTheLineThenTheCount (O27) states its frame. -/
def Obligations.OtherStateChangesOnlyAsNamed : Prop :=
  ∀ (i : Instr) (s t : State), exec i s = .next t →
    t.params = s.params ∧ t.answers = s.answers ∧
    (t.fault = s.fault ∨ ∃ tr, t = s.raise tr) ∧
    ((∀ r dA cA, i ≠ .svc r (.input dA cA) ∧ i ≠ .svc r (.output dA cA)) → t.port = s.port) ∧
    (t.seq = s.seq ∨ (∃ tr, t = s.raise tr) ∨
      (t.seq = .halted ∧ ∃ r xf, i = .ret r xf) ∨
      ∃ r dA cA, i = .svc r (.input dA cA) ∧
        t.seq = .waitInput { pc := s.pc, dA := dA, cA := cA })

/-- R60, R12 (decision D1). -/
def Obligations.PcAdvancesByTheInstructionsWords : Prop :=
  ∀ (i : Instr) (s t : State), i.wellFormed = true → exec i s = .next t →
    (∃ tr, t = s.raise tr) ∨
    (match i with
      | .ret _ _ => t.pc = s.pc
      | .svc _ (.input _ _) => t.pc = s.pc
      | .jump _ xf adr => effectiveAddress xf adr s = .ok t.pc
      | .jze _ xf adr => effectiveAddress xf adr s = .ok t.pc ∨ t.pc = s.pc + 2
      | .jmi _ xf adr => effectiveAddress xf adr s = .ok t.pc ∨ t.pc = s.pc + 2
      | .jpl _ xf adr => effectiveAddress xf adr s = .ok t.pc ∨ t.pc = s.pc + 2
      | j => t.pc.toNat = (s.pc.toNat + j.words) % 65536)

/-- R67 (and R59): the word, the pc, and that the unit stays. -/
def Obligations.RetAndOnlyRetHalts : Prop :=
  (∀ s : State, s.seq = .ready → opField (s.memRead s.pc) = s.params.opcodes.ret →
    step s = .next { s with seq := .halted } ∧
    ∀ k, core.run k { s with seq := .halted } = .next { s with seq := .halted }) ∧
  (∀ s t : State, s.seq ≠ .halted → step s = .next t → t.seq = .halted →
    s.seq = .ready ∧ opField (s.memRead s.pc) = s.params.opcodes.ret ∧
    t = { s with seq := .halted })

/-- R10: the reads. -/
def Obligations.UnreadRegistersDoNotMatter : Prop :=
  ∀ (i : Instr) (s t : State) (k : Fin 8) (v : Word),
    (∀ f ∈ readRegs i, f.toNat ≠ k) → (∀ d, destReg i = some d → d.toNat ≠ k) →
    exec i s = .next t → exec i (s.setReg k v) = .next (t.setReg k v)

/-- R15: "No instruction reads O." -/
def Obligations.OverflowFlagIsNeverRead : Prop :=
  ∀ (i : Instr) (s t : State) (b : Bool), exec i s = .next t →
    ∃ t', exec i { s with flags := { s.flags with o := b } } = .next t' ∧
      ((writesFlags i = true ∧ t' = t) ∨ t' = { t with flags := { t.flags with o := b } })

/-- R83, R84 (corner cases), R82, R78 (decision D2). -/
def Obligations.CompareThenBranch : Prop :=
  ∀ (s : State) (r xf q x : BitVec 4) (adr : Word) (hr : r.toNat < 8) (hx : xf.toNat < 8),
    x.toNat < 8 → addressFits x adr s →
    ∃ t, exec (.cpaReg r xf) s = .next t ∧
      exec (.jmi q x adr) t = .next { t with
        pc := if s.gr[r.toNat].slt s.gr[xf.toNat] then operandAddress x adr s else s.pc + 3 } ∧
      exec (.jze q x adr) t = .next { t with
        pc := if s.gr[r.toNat] = s.gr[xf.toNat] then operandAddress x adr s else s.pc + 3 } ∧
      exec (.jpl q x adr) t = .next { t with
        pc := if s.gr[xf.toNat].slt s.gr[r.toNat] then operandAddress x adr s else s.pc + 3 }

/-- R34, R115, R72 (corner case). -/
def Obligations.StoredWordIsFetchedNext : Prop :=
  ∀ (s : State) (r xf : BitVec 4) (adr : Word) (hr : r.toNat < 8),
    s.mem.wf = true → xf.toNat < 8 → addressFits xf adr s → operandAddress xf adr s = s.pc + 2 →
    ∃ t, exec (.st r xf adr) s = .next t ∧ t.pc = s.pc + 2 ∧ t.fetchWords.head? = some s.gr[r.toNat]

/-- R35 (decision D18). -/
def Obligations.MemoryFollowsThePortTransactions : Prop :=
  (∀ (i : Instr) (s t : State),
    (portOps i s).head? = some (.read s.pc) ∧
    (exec i s = .next t → t.mem = PortOp.applyAll (portOps i s) s.mem)) ∧
  (∀ (s : State) (ctx : PendingInput) (codes : List Word),
    (s.completeInput ctx codes).mem = PortOp.applyAll (inputOps ctx codes) s.mem)

/-- R22 (decision D5). -/
def Obligations.InvariantHoldsAtReset : Prop :=
  (∀ (p : Params) (d : ResetDraw) (image : Memory),
    p.opcodes.wellFormed = true → image.wf = true → Inv (State.resetWith p d image)) ∧
  Inv State.reset

/-- R17, R18, R19, R23, R24, R44, R99. -/
def Obligations.StepKeepsTheInvariant : Prop :=
  ∀ s t : State, Inv s → step s = .next t → Inv t

/-- R20, R55, R56, R102. -/
def Obligations.HostCommandsKeepTheInvariant : Prop :=
  ∀ (c : Command) (s t : State) (q : Reply), Inv s → perform c s = .next (t, q) → Inv t

/-- R22, R110, R111, R112, R117 (decisions D5, D6, D28); the draw of State.reset is the model's (Logs 4 to 7). -/
def Obligations.ResetIsIdleUntilStart : Prop :=
  ∀ (p : Params) (d : ResetDraw) (image : Memory) (a : Word),
    (State.resetWith p d image).seq = .idle ∧
    causeCode (State.resetWith p d image).fault.cause = 0 ∧
    (State.resetWith p d image).gr = d.gr ∧ (State.resetWith p d image).flags = d.flags ∧
    (State.resetWith p d image).pc = d.pc ∧ (State.resetWith p d image).mem = image ∧
    step (State.resetWith p d image) = .next (State.resetWith p d image) ∧
    ∃ t, perform (.start a) (State.resetWith p d image) = .next (t, .accepted) ∧
      t.gr = d.gr ∧ t.flags = d.flags ∧ t.port = [] ∧
      ∀ host, HostAnswers p host →
        Launched
          { entry := a
            image := image
            gr := (List.finRange 8).map fun i => (i, d.gr[i])
            o := some d.flags.o
            s := some d.flags.s
            z := some d.flags.z
            params := p } host t

/-- R55 (decision D7), R101, R113. -/
def Obligations.StartSetsPcAndClearsTheCause : Prop :=
  ∀ (s : State) (a : Word),
    ((∀ ctx, s.seq ≠ .waitInput ctx) →
      perform (.start a) s = .next ({ s with
        pc := a
        seq := .ready
        fault := { s.fault with cause := .none } }, .accepted)) ∧
    (∀ ctx, s.seq = .waitInput ctx → perform (.start a) s = .next (s, .turnedAway))

/-- R20 (decision D23); that a forbidden write has no effect is the model's choice (Log 15). -/
def Obligations.DriverWritesOnlyAStoppedUnit : Prop :=
  ∀ (s : State) (i : Fin 8) (a v : Word) (f : Flags),
    (s.seq = .idle ∨ s.seq = .halted ∨ s.seq = .faulted →
      perform (.writeReg i v) s = .next ({ s with gr := s.gr.set i v }, .accepted) ∧
      perform (.writePc a) s = .next ({ s with pc := a }, .accepted) ∧
      perform (.writeFlags f) s = .next ({ s with flags := f }, .accepted) ∧
      perform (.writeWord a v) s = .next ({ s with mem := s.mem.set a.toNat v }, .accepted)) ∧
    ((s.seq = .ready ∨ ∃ ctx, s.seq = .waitInput ctx) →
      perform (.writeReg i v) s = .next (s, .turnedAway) ∧
      perform (.writePc a) s = .next (s, .turnedAway) ∧
      perform (.writeFlags f) s = .next (s, .turnedAway) ∧
      perform (.writeWord a v) s = .next (s, .turnedAway))

/-- R56 (decisions D6, D16). -/
def Obligations.StepReportsStillRunning : Prop :=
  (∀ s : State, s.seq = .ready →
    ∃ t, step s = .next t ∧
      (t.seq = .ready → perform .step s = .next (t, .returned true)) ∧
      (t.seq = .halted → perform .step s = .next (t, .returned false)) ∧
      (t.seq = .faulted → perform .step s = .next (t, .reported t.fault)) ∧
      (∀ ctx, t.seq = .waitInput ctx → perform .step s = .next (t, .inProgress)) ∧
      t.seq ≠ .idle) ∧
  (∀ (s : State) (ctx : PendingInput), s.seq = .waitInput ctx →
    perform .step s = .next (s, .inProgress))

/-- R56, R87 (decisions D14, D16); an answer without a request is the model's choice (Log 17). -/
def Obligations.AnswerCompletesTheWaitingStep : Prop :=
  ∀ (s : State) (line : Line),
    (∀ ctx codes, s.seq = .waitInput ctx → encodeLine s.params line = some codes →
      perform (.answer line) s = .next (s.completeInput ctx codes, .returned true) ∧
      (s.completeInput ctx codes).seq = .ready) ∧
    ((∀ ctx, s.seq ≠ .waitInput ctx) → perform (.answer line) s = .next (s, .turnedAway))

/-- R57: "Both modes share the same core stepping algorithm"; R90. The queue and the sequence of answers are
the model's two forms of one host (Logs 10, 19). -/
def Obligations.RunIsRepeatedStepping : Prop :=
  (∀ (k : Nat) (s : State), runFor k s = core.run k s) ∧
  ∀ (host : Nat → Line) (k : Nat) (s : State),
    (∀ t, runWith host k 0 s = .next t →
      ∃ rest, core.run k { s with answers := (List.range k).map host } =
        .next { t with answers := rest }) ∧
    (∀ f, runWith host k 0 s = .fault f →
      core.run k { s with answers := (List.range k).map host } = .fault f)

/-- R57, R58 (decision D28). -/
def Obligations.RunsEndInOneState : Prop :=
  ∀ s t u : State, RunEndsAt s t → RunEndsAt s u →
    t = u ∧ (t.seq = .halted ∨ t.seq = .faulted) ∧ ∀ k, core.run k t = .next t

/-- R117, R57, R58, R92 (decisions D5, D16, D28); a host is the sequence of its answers (Log 19). -/
def Obligations.LaunchedRunsEndInOneWay : Prop :=
  ∀ (c : RunPremises) (host : Nat → Line) (s : State), Launched c host s →
    (∀ k, ∃ t, runWith host k 0 s = .next t ∧ t.params = c.params) ∧
    (∀ k t ctx, runWith host k 0 s = .next t → t.seq = .waitInput ctx →
      ∃ u, runWith host (k + 1) 0 s = .next u ∧ u.seq = .ready) ∧
    ((∃ t, EndsNormally host s t) ∨ (∃ t, EndsFaulted host s t) ∨ NeverEnds host s) ∧
    (∀ t u, EndsNormally host s t → EndsNormally host s u → t = u) ∧
    (∀ post, NormalEndClaim c post → (∀ t, ¬EndsFaulted host s t) ∧ ¬NeverEnds host s)
end

