-- ==== Sys2Proof/Laws/Decode.lean ====
section
/-! SUPPORT. The fields of a packed word, and the form an opcode names. -/

namespace Sys2Proof

/-- R50: `opcode*256 + gr1*16 + gr2OrIndex`. -/
theorem toNat_packWord (op : BitVec 8) (r xf : BitVec 4) :
    (packWord op r xf).toNat = op.toNat * 256 + r.toNat * 16 + xf.toNat := by
  have h : (packWord op r xf).toNat = (op.toNat <<< 4 ||| r.toNat) <<< 4 ||| xf.toNat :=
    (BitVec.toNat_append (op ++ r) xf).trans (by rw [BitVec.toNat_append])
  rw [h, ← Nat.shiftLeft_add_eq_or_of_lt r.isLt, ← Nat.shiftLeft_add_eq_or_of_lt xf.isLt]
  simp only [Nat.shiftLeft_eq]
  omega

theorem toNat_opField (w : Word) : (opField w).toNat = w.toNat / 256 := by
  have := w.isLt
  simp only [opField, BitVec.extractLsb'_toNat, Nat.shiftRight_eq_div_pow]
  omega

theorem toNat_rField (w : Word) : (rField w).toNat = w.toNat / 16 % 16 := by
  simp [rField, BitVec.extractLsb'_toNat, Nat.shiftRight_eq_div_pow]

theorem toNat_xfField (w : Word) : (xfField w).toNat = w.toNat % 16 := by
  simp [xfField, BitVec.extractLsb'_toNat]

@[simp] theorem opField_packWord (op : BitVec 8) (r xf : BitVec 4) :
    opField (packWord op r xf) = op := by
  have := r.isLt
  have := xf.isLt
  exact BitVec.eq_of_toNat_eq (by rw [toNat_opField, toNat_packWord]; omega)

@[simp] theorem rField_packWord (op : BitVec 8) (r xf : BitVec 4) :
    rField (packWord op r xf) = r := by
  have := r.isLt
  have := xf.isLt
  exact BitVec.eq_of_toNat_eq (by rw [toNat_rField, toNat_packWord]; omega)

@[simp] theorem xfField_packWord (op : BitVec 8) (r xf : BitVec 4) :
    xfField (packWord op r xf) = xf := by
  have := xf.isLt
  exact BitVec.eq_of_toNat_eq (by rw [toNat_xfField, toNat_packWord]; omega)

/-- R36: a word is its three fields. -/
theorem packWord_fields (w : Word) : packWord (opField w) (rField w) (xfField w) = w :=
  BitVec.eq_of_toNat_eq (by rw [toNat_packWord, toNat_opField, toNat_rField, toNat_xfField]; omega)

theorem Form.mem_all (f : Form) : f ∈ Form.all := by cases f <;> decide

/-- R44: distinct opcodes name distinct forms. -/
theorem OpcodeMap.opcode_injective {m : OpcodeMap} (h : m.wellFormed = true) {f g : Form}
    (e : m.opcode f = m.opcode g) : f = g := by
  have hn : (Form.all.map m.opcode).Nodup := of_decide_eq_true h
  exact List.inj_on_of_nodup_map hn f.mem_all g.mem_all e

/-- R46: an assigned opcode names its form. -/
theorem OpcodeMap.formOf_opcode {m : OpcodeMap} (h : m.wellFormed = true) (f : Form) :
    m.formOf (m.opcode f) = some f := by
  cases hf : m.formOf (m.opcode f) with
  | none =>
    have := List.find?_eq_none.1 hf f f.mem_all
    simp at this
  | some g =>
    have hg := List.find?_some hf
    rw [OpcodeMap.opcode_injective h (eq_of_beq hg)]

/-- R46: the form found has the opcode. -/
theorem OpcodeMap.opcode_of_formOf {m : OpcodeMap} {op : BitVec 8} {f : Form}
    (h : m.formOf op = some f) : m.opcode f = op := by
  have := List.find?_some (show Form.all.find? (fun g => m.opcode g == op) = some f from h)
  simpa using this

/-- R47: an opcode is unassigned exactly when it is no form's. -/
theorem OpcodeMap.formOf_eq_none {m : OpcodeMap} {op : BitVec 8} :
    m.formOf op = none ↔ ∀ f, m.opcode f ≠ op := by
  simp only [OpcodeMap.formOf, List.find?_eq_none, beq_iff_eq]
  exact ⟨fun h f => h f f.mem_all, fun h f _ => h f⟩

/-- Decoding looks at the fields of word 0. -/
theorem decode_packWord {m : OpcodeMap} (h : m.wellFormed = true) (f : Form) (r xf : BitVec 4)
    (rest : List Word) :
    decode m (packWord (m.opcode f) r xf :: rest) = decodeForm f r xf rest := by
  simp [decode, OpcodeMap.formOf_opcode h]

end Sys2Proof
end

