-- ==== Sys2Proof/Laws/Memory.lean ====
section
/-! SUPPORT. The Word Store: reads after writes, and that a write keeps the canonical form. -/

namespace Sys2Proof.Machine

@[simp] theorem Memory.get_nil (a : Nat) : Memory.get [] a = 0 := rfl

theorem Memory.get_cons (k : Nat) (v : Word) (m : Memory) (a : Nat) :
    Memory.get ((k, v) :: m) a = if k = a then v else Memory.get m a := rfl

theorem Memory.wfFrom_cons (lo k : Nat) (v : Word) (m : Memory) :
    Memory.wfFrom lo ((k, v) :: m) = true ↔
      lo ≤ k ∧ k < 65536 ∧ v ≠ 0 ∧ Memory.wfFrom (k + 1) m = true := by
  simp [Memory.wfFrom, and_assoc]

theorem Memory.wfFrom_mono {lo lo' : Nat} {m : Memory} (h : Memory.wfFrom lo' m = true)
    (hl : lo ≤ lo') : Memory.wfFrom lo m = true := by
  cases m with
  | nil => rfl
  | cons e m =>
    obtain ⟨k, v⟩ := e
    rw [Memory.wfFrom_cons] at h ⊢
    exact ⟨hl.trans h.1, h.2⟩

/-- Addresses below the first entry are not listed. -/
theorem Memory.get_below {lo a : Nat} {m : Memory} (h : Memory.wfFrom lo m = true) (ha : a < lo) :
    m.get a = 0 := by
  induction m generalizing lo with
  | nil => rfl
  | cons e m ih =>
    obtain ⟨k, v⟩ := e
    rw [Memory.wfFrom_cons] at h
    rw [Memory.get_cons, if_neg (by omega)]
    exact ih h.2.2.2 (by omega)

theorem Memory.get_consNonzero_self {a : Nat} {v : Word} {m : Memory} (h : m.get a = 0) :
    (Memory.consNonzero a v m).get a = v := by
  unfold Memory.consNonzero
  split
  · next hv => rw [h, hv]
  · simp [Memory.get_cons]

theorem Memory.get_consNonzero_ne {a b : Nat} (v : Word) (m : Memory) (h : b ≠ a) :
    (Memory.consNonzero a v m).get b = m.get b := by
  unfold Memory.consNonzero
  split
  · rfl
  · rw [Memory.get_cons, if_neg h.symm]

/-- R26: a write changes no other address. -/
theorem Memory.get_set_ne (m : Memory) (v : Word) {a b : Nat} (h : b ≠ a) :
    (m.set a v).get b = m.get b := by
  induction m with
  | nil => exact Memory.get_consNonzero_ne v [] h
  | cons e m ih =>
    obtain ⟨k, w⟩ := e
    simp only [Memory.set]
    split
    · exact Memory.get_consNonzero_ne v _ h
    · split
      · next hk => rw [Memory.get_consNonzero_ne v m h, Memory.get_cons, if_neg (by omega)]
      · rw [Memory.get_cons, Memory.get_cons, ih]

/-- R25: a read after a write to the same address gives the word written. -/
theorem Memory.get_set_self {lo : Nat} {m : Memory} (h : Memory.wfFrom lo m = true) (a : Nat)
    (v : Word) : (m.set a v).get a = v := by
  induction m generalizing lo with
  | nil => exact Memory.get_consNonzero_self rfl
  | cons e m ih =>
    obtain ⟨k, w⟩ := e
    have hm := (Memory.wfFrom_cons _ _ _ _).1 h
    simp only [Memory.set]
    split
    · next ha =>
      refine Memory.get_consNonzero_self ?_
      rw [Memory.get_cons, if_neg (by omega)]
      exact Memory.get_below hm.2.2.2 (by omega)
    · split
      · next hk => exact Memory.get_consNonzero_self (Memory.get_below hm.2.2.2 (by omega))
      · next hk => rw [Memory.get_cons, if_neg (Ne.symm hk), ih hm.2.2.2]

theorem Memory.wfFrom_consNonzero {lo a : Nat} {v : Word} {m : Memory}
    (h : Memory.wfFrom (a + 1) m = true) (hl : lo ≤ a) (ha : a < 65536) :
    Memory.wfFrom lo (Memory.consNonzero a v m) = true := by
  unfold Memory.consNonzero
  split
  · exact Memory.wfFrom_mono h (by omega)
  · next hv => exact (Memory.wfFrom_cons _ _ _ _).2 ⟨hl, ha, hv, h⟩

theorem Memory.wfFrom_set {lo a : Nat} {m : Memory} (h : Memory.wfFrom lo m = true) (hl : lo ≤ a)
    (ha : a < 65536) (v : Word) : Memory.wfFrom lo (m.set a v) = true := by
  induction m generalizing lo with
  | nil => exact Memory.wfFrom_consNonzero rfl hl ha
  | cons e m ih =>
    obtain ⟨k, w⟩ := e
    have hm := (Memory.wfFrom_cons _ _ _ _).1 h
    simp only [Memory.set]
    split
    · next hk =>
      exact Memory.wfFrom_consNonzero ((Memory.wfFrom_cons _ _ _ _).2 ⟨hk, hm.2⟩) hl ha
    · split
      · next hk => exact Memory.wfFrom_consNonzero (hk ▸ hm.2.2.2) hl ha
      · next hk => exact (Memory.wfFrom_cons _ _ _ _).2 ⟨hm.1, hm.2.1, hm.2.2.1, ih hm.2.2.2 (by omega)⟩

/-- A write keeps the canonical form. -/
theorem Memory.wf_set {m : Memory} (h : m.wf = true) (a v : Word) :
    Memory.wf (m.set (uint a) v) = true :=
  Memory.wfFrom_set h (Nat.zero_le _) a.isLt v

/-- Two canonical memories that read alike at every 16-bit address are the same list. -/
theorem Memory.eq_of_get_eq {lo : Nat} {m m' : Memory} (h : Memory.wfFrom lo m = true)
    (h' : Memory.wfFrom lo m' = true) (he : ∀ a, a < 65536 → m.get a = m'.get a) : m = m' := by
  induction m generalizing lo m' with
  | nil =>
    cases m' with
    | nil => rfl
    | cons e n =>
      obtain ⟨k, v⟩ := e
      have hn := (Memory.wfFrom_cons _ _ _ _).1 h'
      have := he k hn.2.1
      simp only [Memory.get_nil, Memory.get_cons, if_true] at this
      exact absurd this.symm hn.2.2.1
  | cons e n ih =>
    obtain ⟨k, v⟩ := e
    have hn := (Memory.wfFrom_cons _ _ _ _).1 h
    have hk := he k hn.2.1
    rw [Memory.get_cons, if_pos rfl] at hk
    cases m' with
    | nil => exact absurd hk hn.2.2.1
    | cons e' n' =>
      obtain ⟨k', v'⟩ := e'
      have hn' := (Memory.wfFrom_cons _ _ _ _).1 h'
      have hk' := he k' hn'.2.1
      rw [Memory.get_cons k' v' n' k', if_pos rfl] at hk'
      have hkk : k = k' := by
        rcases Nat.lt_trichotomy k k' with hlt | heq | hgt
        · rw [Memory.get_cons, if_neg (by omega), Memory.get_below hn'.2.2.2 (by omega)] at hk
          exact absurd hk hn.2.2.1
        · exact heq
        · rw [Memory.get_cons, if_neg (by omega), Memory.get_below hn.2.2.2 (by omega)] at hk'
          exact absurd hk'.symm hn'.2.2.1
      subst hkk
      rw [Memory.get_cons, if_pos rfl] at hk
      rw [hk, ih hn.2.2.2 hn'.2.2.2 fun a ha => ?_]
      by_cases hak : k = a
      · rw [← hak, Memory.get_below hn.2.2.2 (by omega), Memory.get_below hn'.2.2.2 (by omega)]
      · have := he a ha
        rwa [Memory.get_cons, Memory.get_cons, if_neg hak, if_neg hak] at this

/-- R26, for the 16-bit addresses of the machine. -/
theorem State.memRead_memWrite_ne (s : State) (v : Word) {a b : Word} (h : b ≠ a) :
    (s.memWrite a v).memRead b = s.memRead b :=
  Memory.get_set_ne s.mem v fun e => h (BitVec.eq_of_toNat_eq e)

/-- R25, for the 16-bit addresses of the machine. -/
theorem State.memRead_memWrite_self {s : State} (h : s.mem.wf = true) (a v : Word) :
    (s.memWrite a v).memRead a = v :=
  Memory.get_set_self h (uint a) v

end Sys2Proof.Machine
end

