-- ==== Sys2Proof/Laws/State.lean ====
section
/-! SUPPORT. The fields of a state after each update of it, one lemma per field per update, so that no
later proof unfolds an update. -/

namespace Sys2Proof.Machine

variable (s : State)

/-! `State.setReg` -/

@[simp] theorem State.setReg_params (i : Fin 8) (v : Word) : (s.setReg i v).params = s.params := rfl
@[simp] theorem State.setReg_gr (i : Fin 8) (v : Word) : (s.setReg i v).gr = s.gr.set i v := rfl
@[simp] theorem State.setReg_pc (i : Fin 8) (v : Word) : (s.setReg i v).pc = s.pc := rfl
@[simp] theorem State.setReg_flags (i : Fin 8) (v : Word) : (s.setReg i v).flags = s.flags := rfl
@[simp] theorem State.setReg_seq (i : Fin 8) (v : Word) : (s.setReg i v).seq = s.seq := rfl
@[simp] theorem State.setReg_fault (i : Fin 8) (v : Word) : (s.setReg i v).fault = s.fault := rfl
@[simp] theorem State.setReg_mem (i : Fin 8) (v : Word) : (s.setReg i v).mem = s.mem := rfl
@[simp] theorem State.setReg_answers (i : Fin 8) (v : Word) : (s.setReg i v).answers = s.answers := rfl
@[simp] theorem State.setReg_port (i : Fin 8) (v : Word) : (s.setReg i v).port = s.port := rfl

/-! `State.setPc` -/

@[simp] theorem State.setPc_params (t : Word) : (s.setPc t).params = s.params := rfl
@[simp] theorem State.setPc_gr (t : Word) : (s.setPc t).gr = s.gr := rfl
@[simp] theorem State.setPc_pc (t : Word) : (s.setPc t).pc = t := rfl
@[simp] theorem State.setPc_flags (t : Word) : (s.setPc t).flags = s.flags := rfl
@[simp] theorem State.setPc_seq (t : Word) : (s.setPc t).seq = s.seq := rfl
@[simp] theorem State.setPc_fault (t : Word) : (s.setPc t).fault = s.fault := rfl
@[simp] theorem State.setPc_mem (t : Word) : (s.setPc t).mem = s.mem := rfl
@[simp] theorem State.setPc_answers (t : Word) : (s.setPc t).answers = s.answers := rfl
@[simp] theorem State.setPc_port (t : Word) : (s.setPc t).port = s.port := rfl

/-! `State.advance` -/

@[simp] theorem State.advance_params (n : Nat) : (s.advance n).params = s.params := rfl
@[simp] theorem State.advance_gr (n : Nat) : (s.advance n).gr = s.gr := rfl
@[simp] theorem State.advance_pc (n : Nat) : (s.advance n).pc = wrap16 (uint s.pc + n) := rfl
@[simp] theorem State.advance_flags (n : Nat) : (s.advance n).flags = s.flags := rfl
@[simp] theorem State.advance_seq (n : Nat) : (s.advance n).seq = s.seq := rfl
@[simp] theorem State.advance_fault (n : Nat) : (s.advance n).fault = s.fault := rfl
@[simp] theorem State.advance_mem (n : Nat) : (s.advance n).mem = s.mem := rfl
@[simp] theorem State.advance_answers (n : Nat) : (s.advance n).answers = s.answers := rfl
@[simp] theorem State.advance_port (n : Nat) : (s.advance n).port = s.port := rfl

/-! `State.setSeq` -/

@[simp] theorem State.setSeq_params (q : Seq) : (s.setSeq q).params = s.params := rfl
@[simp] theorem State.setSeq_gr (q : Seq) : (s.setSeq q).gr = s.gr := rfl
@[simp] theorem State.setSeq_pc (q : Seq) : (s.setSeq q).pc = s.pc := rfl
@[simp] theorem State.setSeq_flags (q : Seq) : (s.setSeq q).flags = s.flags := rfl
@[simp] theorem State.setSeq_seq (q : Seq) : (s.setSeq q).seq = q := rfl
@[simp] theorem State.setSeq_fault (q : Seq) : (s.setSeq q).fault = s.fault := rfl
@[simp] theorem State.setSeq_mem (q : Seq) : (s.setSeq q).mem = s.mem := rfl
@[simp] theorem State.setSeq_answers (q : Seq) : (s.setSeq q).answers = s.answers := rfl
@[simp] theorem State.setSeq_port (q : Seq) : (s.setSeq q).port = s.port := rfl

/-! `State.setFlags` -/

@[simp] theorem State.setFlags_params (n : Int) : (s.setFlags n).params = s.params := rfl
@[simp] theorem State.setFlags_gr (n : Int) : (s.setFlags n).gr = s.gr := rfl
@[simp] theorem State.setFlags_pc (n : Int) : (s.setFlags n).pc = s.pc := rfl
@[simp] theorem State.setFlags_flags (n : Int) : (s.setFlags n).flags = flagsOf n := rfl
@[simp] theorem State.setFlags_seq (n : Int) : (s.setFlags n).seq = s.seq := rfl
@[simp] theorem State.setFlags_fault (n : Int) : (s.setFlags n).fault = s.fault := rfl
@[simp] theorem State.setFlags_mem (n : Int) : (s.setFlags n).mem = s.mem := rfl
@[simp] theorem State.setFlags_answers (n : Int) : (s.setFlags n).answers = s.answers := rfl
@[simp] theorem State.setFlags_port (n : Int) : (s.setFlags n).port = s.port := rfl

/-! `State.memWrite` -/

@[simp] theorem State.memWrite_params (a v : Word) : (s.memWrite a v).params = s.params := rfl
@[simp] theorem State.memWrite_gr (a v : Word) : (s.memWrite a v).gr = s.gr := rfl
@[simp] theorem State.memWrite_pc (a v : Word) : (s.memWrite a v).pc = s.pc := rfl
@[simp] theorem State.memWrite_flags (a v : Word) : (s.memWrite a v).flags = s.flags := rfl
@[simp] theorem State.memWrite_seq (a v : Word) : (s.memWrite a v).seq = s.seq := rfl
@[simp] theorem State.memWrite_fault (a v : Word) : (s.memWrite a v).fault = s.fault := rfl
@[simp] theorem State.memWrite_mem (a v : Word) : (s.memWrite a v).mem = s.mem.set (uint a) v := rfl
@[simp] theorem State.memWrite_answers (a v : Word) : (s.memWrite a v).answers = s.answers := rfl
@[simp] theorem State.memWrite_port (a v : Word) : (s.memWrite a v).port = s.port := rfl

/-! `State.logPort` -/

@[simp] theorem State.logPort_params (e : IoEvent) : (s.logPort e).params = s.params := rfl
@[simp] theorem State.logPort_gr (e : IoEvent) : (s.logPort e).gr = s.gr := rfl
@[simp] theorem State.logPort_pc (e : IoEvent) : (s.logPort e).pc = s.pc := rfl
@[simp] theorem State.logPort_flags (e : IoEvent) : (s.logPort e).flags = s.flags := rfl
@[simp] theorem State.logPort_seq (e : IoEvent) : (s.logPort e).seq = s.seq := rfl
@[simp] theorem State.logPort_fault (e : IoEvent) : (s.logPort e).fault = s.fault := rfl
@[simp] theorem State.logPort_mem (e : IoEvent) : (s.logPort e).mem = s.mem := rfl
@[simp] theorem State.logPort_answers (e : IoEvent) : (s.logPort e).answers = s.answers := rfl
@[simp] theorem State.logPort_port (e : IoEvent) : (s.logPort e).port = s.port ++ [e] := rfl

/-! `State.setResult` -/

@[simp] theorem State.setResult_params (i : Fin 8) (v : Word) (n : Int) : (s.setResult i v n).params = s.params := rfl
@[simp] theorem State.setResult_gr (i : Fin 8) (v : Word) (n : Int) : (s.setResult i v n).gr = s.gr.set i v := rfl
@[simp] theorem State.setResult_pc (i : Fin 8) (v : Word) (n : Int) : (s.setResult i v n).pc = s.pc := rfl
@[simp] theorem State.setResult_flags (i : Fin 8) (v : Word) (n : Int) : (s.setResult i v n).flags = flagsOf n := rfl
@[simp] theorem State.setResult_seq (i : Fin 8) (v : Word) (n : Int) : (s.setResult i v n).seq = s.seq := rfl
@[simp] theorem State.setResult_fault (i : Fin 8) (v : Word) (n : Int) : (s.setResult i v n).fault = s.fault := rfl
@[simp] theorem State.setResult_mem (i : Fin 8) (v : Word) (n : Int) : (s.setResult i v n).mem = s.mem := rfl
@[simp] theorem State.setResult_answers (i : Fin 8) (v : Word) (n : Int) : (s.setResult i v n).answers = s.answers := rfl
@[simp] theorem State.setResult_port (i : Fin 8) (v : Word) (n : Int) : (s.setResult i v n).port = s.port := rfl

/-! `State.raise` -/

@[simp] theorem State.raise_params (t : Trap) : (s.raise t).params = s.params := rfl
@[simp] theorem State.raise_gr (t : Trap) : (s.raise t).gr = s.gr := rfl
@[simp] theorem State.raise_pc (t : Trap) : (s.raise t).pc = s.pc := rfl
@[simp] theorem State.raise_flags (t : Trap) : (s.raise t).flags = s.flags := rfl
@[simp] theorem State.raise_seq (t : Trap) : (s.raise t).seq = .faulted := rfl
@[simp] theorem State.raise_fault (t : Trap) : (s.raise t).fault = { cause := t.cause, fpc := s.pc, fword := s.memRead s.pc, finfo := t.info } := rfl
@[simp] theorem State.raise_mem (t : Trap) : (s.raise t).mem = s.mem := rfl
@[simp] theorem State.raise_answers (t : Trap) : (s.raise t).answers = s.answers := rfl
@[simp] theorem State.raise_port (t : Trap) : (s.raise t).port = s.port := rfl

/-! `State.start` -/

@[simp] theorem State.start_params (a : Word) : (s.start a).params = s.params := rfl
@[simp] theorem State.start_gr (a : Word) : (s.start a).gr = s.gr := rfl
@[simp] theorem State.start_pc (a : Word) : (s.start a).pc = a := rfl
@[simp] theorem State.start_flags (a : Word) : (s.start a).flags = s.flags := rfl
@[simp] theorem State.start_seq (a : Word) : (s.start a).seq = .ready := rfl
@[simp] theorem State.start_fault (a : Word) : (s.start a).fault = { s.fault with cause := .none } := rfl
@[simp] theorem State.start_mem (a : Word) : (s.start a).mem = s.mem := rfl
@[simp] theorem State.start_answers (a : Word) : (s.start a).answers = s.answers := rfl
@[simp] theorem State.start_port (a : Word) : (s.start a).port = s.port := rfl

/-! Reading a register, a word -/

/-- R8: a written register holds the word written and every other register keeps its own. -/
@[simp] theorem State.reg_setReg (i j : Fin 8) (v : Word) :
    (s.setReg i v).reg j = if j = i then v else s.reg j := by
  rcases eq_or_ne j i with h | h
  · simp [State.reg, State.setReg, h]
  · have : (i : Nat) ≠ j := fun e => h (Fin.ext e.symm)
    simp [State.reg, State.setReg, h, this]

@[simp] theorem State.setReg_memRead (i : Fin 8) (v : Word) (x : Word) : (s.setReg i v).memRead x = s.memRead x := rfl
@[simp] theorem State.setPc_reg (t : Word) (j : Fin 8) : (s.setPc t).reg j = s.reg j := rfl
@[simp] theorem State.setPc_memRead (t : Word) (x : Word) : (s.setPc t).memRead x = s.memRead x := rfl
@[simp] theorem State.advance_reg (n : Nat) (j : Fin 8) : (s.advance n).reg j = s.reg j := rfl
@[simp] theorem State.advance_memRead (n : Nat) (x : Word) : (s.advance n).memRead x = s.memRead x := rfl
@[simp] theorem State.setSeq_reg (q : Seq) (j : Fin 8) : (s.setSeq q).reg j = s.reg j := rfl
@[simp] theorem State.setSeq_memRead (q : Seq) (x : Word) : (s.setSeq q).memRead x = s.memRead x := rfl
@[simp] theorem State.setFlags_reg (n : Int) (j : Fin 8) : (s.setFlags n).reg j = s.reg j := rfl
@[simp] theorem State.setFlags_memRead (n : Int) (x : Word) : (s.setFlags n).memRead x = s.memRead x := rfl
@[simp] theorem State.memWrite_reg (a v : Word) (j : Fin 8) : (s.memWrite a v).reg j = s.reg j := rfl
@[simp] theorem State.logPort_reg (e : IoEvent) (j : Fin 8) : (s.logPort e).reg j = s.reg j := rfl
@[simp] theorem State.logPort_memRead (e : IoEvent) (x : Word) : (s.logPort e).memRead x = s.memRead x := rfl
@[simp] theorem State.setResult_memRead (i : Fin 8) (v : Word) (n : Int) (x : Word) : (s.setResult i v n).memRead x = s.memRead x := rfl
@[simp] theorem State.raise_reg (t : Trap) (j : Fin 8) : (s.raise t).reg j = s.reg j := rfl
@[simp] theorem State.raise_memRead (t : Trap) (x : Word) : (s.raise t).memRead x = s.memRead x := rfl
@[simp] theorem State.start_reg (a : Word) (j : Fin 8) : (s.start a).reg j = s.reg j := rfl
@[simp] theorem State.start_memRead (a : Word) (x : Word) : (s.start a).memRead x = s.memRead x := rfl

@[simp] theorem State.setResult_reg (i j : Fin 8) (v : Word) (n : Int) :
    (s.setResult i v n).reg j = if j = i then v else s.reg j := by
  simp [State.setResult]

/-! The answers taken by `resumeInput` -/

@[simp] theorem State.withAnswers_params (ls : List Line) : ({ s with answers := ls } : State).params = s.params := rfl
@[simp] theorem State.withAnswers_gr (ls : List Line) : ({ s with answers := ls } : State).gr = s.gr := rfl
@[simp] theorem State.withAnswers_pc (ls : List Line) : ({ s with answers := ls } : State).pc = s.pc := rfl
@[simp] theorem State.withAnswers_flags (ls : List Line) : ({ s with answers := ls } : State).flags = s.flags := rfl
@[simp] theorem State.withAnswers_seq (ls : List Line) : ({ s with answers := ls } : State).seq = s.seq := rfl
@[simp] theorem State.withAnswers_fault (ls : List Line) : ({ s with answers := ls } : State).fault = s.fault := rfl
@[simp] theorem State.withAnswers_mem (ls : List Line) : ({ s with answers := ls } : State).mem = s.mem := rfl
@[simp] theorem State.withAnswers_answers (ls : List Line) : ({ s with answers := ls } : State).answers = ls := rfl
@[simp] theorem State.withAnswers_port (ls : List Line) : ({ s with answers := ls } : State).port = s.port := rfl

end Sys2Proof.Machine
end

