-- ==== Sys2Proof/Laws/Ops.lean ====
section
/-! SUPPORT. One lemma for each shared operation that says everything it can do; provers cite these
instead of unfolding. -/

namespace Sys2Proof.Machine

/-! ### The register check and the range policy -/

theorem checkReg_of_lt {i : BitVec 4} (h : i.toNat < 8) : checkReg i = .ok ⟨i.toNat, h⟩ := dif_pos h

theorem checkReg_of_ge {i : BitVec 4} (h : 8 ≤ i.toNat) : checkReg i = .error (.invalidRegister i) :=
  dif_neg (by omega)

theorem checkReg_cases (i : BitVec 4) :
    (∃ h : i.toNat < 8, checkReg i = .ok ⟨i.toNat, h⟩) ∨
      8 ≤ i.toNat ∧ checkReg i = .error (.invalidRegister i) := by
  by_cases h : i.toNat < 8
  · exact .inl ⟨h, checkReg_of_lt h⟩
  · exact .inr ⟨by omega, checkReg_of_ge (by omega)⟩

theorem fitS_cases (strict : Bool) (n : Int) :
    fitS strict n = .ok (wrap16 n) ∧ (strict = true → -32768 ≤ n ∧ n ≤ 32767) ∨
      strict = true ∧ ¬(-32768 ≤ n ∧ n ≤ 32767) ∧ fitS strict n = .error (.rangeViolation n) := by
  by_cases h : strict = true ∧ ¬(-32768 ≤ n ∧ n ≤ 32767)
  · exact .inr ⟨h.1, h.2, if_pos h⟩
  · exact .inl ⟨if_neg h, by simpa using h⟩

theorem fitA_cases (strict : Bool) (n : Int) :
    fitA strict n = .ok (wrap16 n) ∧ (strict = true → 0 ≤ n ∧ n ≤ 65535) ∨
      strict = true ∧ ¬(0 ≤ n ∧ n ≤ 65535) ∧ fitA strict n = .error (.rangeViolation n) := by
  by_cases h : strict = true ∧ ¬(0 ≤ n ∧ n ≤ 65535)
  · exact .inr ⟨h.1, h.2, if_pos h⟩
  · exact .inl ⟨if_neg h, by simpa using h⟩

/-- The wrapped address plus a step is the address plus the step (R5, R60). -/
theorem wrap16_uint_add (p : Word) (n : Nat) : wrap16 (uint p + n) = p + BitVec.ofNat 16 n := by
  rw [wrap16, ← Int.natCast_add, BitVec.ofInt_natCast, BitVec.ofNat_add]
  simp

theorem wrap16_uint (p : Word) : wrap16 (uint p) = p := by
  simp [wrap16]

/-! ### Handlers -/

@[simp] theorem proceed_ok {α : Type} (v : α) (s : State)
    (k : α → Host.Outcome State Fault Refusal) : proceed (.ok v) s k = k v := rfl

@[simp] theorem proceed_error {α : Type} (t : Trap) (s : State)
    (k : α → Host.Outcome State Fault Refusal) : proceed (.error t) s k = .next (s.raise t) := rfl

/-- A checked value is there, or the instruction has raised the fault. -/
theorem proceed_cases {α : Type} (c : Except Trap α) (s : State)
    (k : α → Host.Outcome State Fault Refusal) :
    (∃ t, c = .error t ∧ proceed c s k = .next (s.raise t)) ∨ ∃ v, c = .ok v ∧ proceed c s k = k v := by
  cases c with
  | error t => exact .inl ⟨t, rfl, rfl⟩
  | ok v => exact .inr ⟨v, rfl, rfl⟩

/-- Format RR: `InvalidRegister` for `r`, else for `xf`, else both registers are there. -/
theorem withRegisters_cases (r xf : BitVec 4) (s : State)
    (k : Fin 8 → Fin 8 → Host.Outcome State Fault Refusal) :
    8 ≤ r.toNat ∧ withRegisters r xf s k = .next (s.raise (.invalidRegister r)) ∨
      r.toNat < 8 ∧ 8 ≤ xf.toNat ∧ withRegisters r xf s k = .next (s.raise (.invalidRegister xf)) ∨
      ∃ (hr : r.toNat < 8) (hx : xf.toNat < 8),
        withRegisters r xf s k = k ⟨r.toNat, hr⟩ ⟨xf.toNat, hx⟩ := by
  rcases checkReg_cases r with ⟨hr, er⟩ | ⟨hr, er⟩
  · rcases checkReg_cases xf with ⟨hx, ex⟩ | ⟨hx, ex⟩
    · exact .inr (.inr ⟨hr, hx, by simp [withRegisters, er, ex]⟩)
    · exact .inr (.inl ⟨hr, hx, by simp [withRegisters, er, ex]⟩)
  · exact .inl ⟨hr, by simp [withRegisters, er]⟩

/-- Format RM: `InvalidRegister` for `r`, else the fault of the effective address, else both are
there. -/
theorem withRegisterAddress_cases (r xf : BitVec 4) (adr : Word) (s : State)
    (k : Fin 8 → Word → Host.Outcome State Fault Refusal) :
    8 ≤ r.toNat ∧ withRegisterAddress r xf adr s k = .next (s.raise (.invalidRegister r)) ∨
      (∃ t, r.toNat < 8 ∧ effectiveAddress xf adr s = .error t ∧
        withRegisterAddress r xf adr s k = .next (s.raise t)) ∨
      ∃ (hr : r.toNat < 8) (a : Word), effectiveAddress xf adr s = .ok a ∧
        withRegisterAddress r xf adr s k = k ⟨r.toNat, hr⟩ a := by
  rcases checkReg_cases r with ⟨hr, er⟩ | ⟨hr, er⟩
  · cases ea : effectiveAddress xf adr s with
    | error t => exact .inr (.inl ⟨t, hr, rfl, by simp [withRegisterAddress, er, ea]⟩)
    | ok a => exact .inr (.inr ⟨hr, a, rfl, by simp [withRegisterAddress, er, ea]⟩)
  · exact .inl ⟨hr, by simp [withRegisterAddress, er]⟩

/-- Format M: the fault of the effective address, else the target is there. -/
theorem withTarget_cases (xf : BitVec 4) (adr : Word) (s : State)
    (k : Word → Host.Outcome State Fault Refusal) :
    (∃ t, effectiveAddress xf adr s = .error t ∧ withTarget xf adr s k = .next (s.raise t)) ∨
      ∃ a, effectiveAddress xf adr s = .ok a ∧ withTarget xf adr s k = k a :=
  proceed_cases _ _ _

/-- R80: the fault of the target, else the jump, else the fall-through. -/
theorem branchIf_cases (taken : Bool) (xf : BitVec 4) (adr : Word) (s : State) :
    (∃ t, effectiveAddress xf adr s = .error t ∧ branchIf taken xf adr s = .next (s.raise t)) ∨
      ∃ a, effectiveAddress xf adr s = .ok a ∧
        branchIf taken xf adr s = .next (if taken then s.setPc a else s.advance 2) := by
  rcases withTarget_cases xf adr s fun t => if taken then moved (s.setPc t) else retire 2 s with
    ⟨t, h, e⟩ | ⟨a, h, e⟩
  · exact .inl ⟨t, h, e⟩
  · refine .inr ⟨a, h, e.trans ?_⟩
    cases taken <;> rfl

/-- R63: the effective address depends on the index register and the range policy alone. -/
theorem effectiveAddress_congr {s s' : State} (xf : BitVec 4) (adr : Word)
    (hp : s'.params.strictRange = s.params.strictRange)
    (hg : ∀ x : Fin 8, xf ≠ 0#4 → (x : Nat) = xf.toNat → s'.reg x = s.reg x) :
    effectiveAddress xf adr s' = effectiveAddress xf adr s := by
  unfold effectiveAddress
  split
  · rw [hp]
  · next h0 =>
    rcases checkReg_cases xf with ⟨hx, ex⟩ | ⟨hx, ex⟩
    · rw [ex]
      simp only [hp, hg ⟨xf.toNat, hx⟩ h0 rfl]
    · rw [ex]

/-! ### The I/O port -/

/-- R87: writing codes changes memory alone. -/
theorem State.writeCodes_eq (s : State) (a : Word) (cs : List Word) :
    s.writeCodes a cs = { s with mem := (s.writeCodes a cs).mem } := by
  induction cs generalizing s a with
  | nil => rfl
  | cons c cs ih =>
    rw [State.writeCodes, ih]
    rfl

theorem State.writeCodes_wf {s : State} (h : s.mem.wf = true) (a : Word) (cs : List Word) :
    (s.writeCodes a cs).mem.wf = true := by
  induction cs generalizing s a with
  | nil => exact h
  | cons c cs ih => exact ih (Memory.wf_set h a c) (a + 1)

/-- R92: a line is delivered whole, or the host has broken its duty. -/
theorem deliverLine_cases (ctx : PendingInput) (line : Line) (s : State) :
    (∃ codes, encodeLine s.params line = some codes ∧
      deliverLine ctx line s = .next (s.completeInput ctx codes)) ∨
      encodeLine s.params line = none ∧ deliverLine ctx line s = .fault .hostBrokeLineDuty := by
  unfold deliverLine
  cases encodeLine s.params line with
  | some codes => exact .inl ⟨codes, rfl, rfl⟩
  | none => exact .inr ⟨rfl, rfl⟩

/-- R87: what the completion of an SVC type 1 leaves, but for memory. -/
theorem State.completeInput_eq (s : State) (ctx : PendingInput) (codes : List Word) :
    s.completeInput ctx codes =
      { s with
        mem := (s.writeCodes ctx.dA codes).mem.set (uint ctx.cA) (wrap16 codes.length)
        seq := .ready
        pc := wrap16 (uint s.pc + 3) } := by
  unfold State.completeInput
  rw [State.writeCodes_eq]
  rfl

/-! ### Steps -/

theorem step_of_ready {s : State} (h : s.seq = .ready) :
    step s = match s.fetch with
      | .ok i => exec i s
      | .error _ => undefinedAtPc s := by
  cases hf : s.fetch <;> simp only [step, h, hf]

theorem step_of_waitInput {s : State} {ctx : PendingInput} (h : s.seq = .waitInput ctx) :
    step s = resumeInput ctx s := by
  simp only [step, h]

end Sys2Proof.Machine
end

