-- ==== Sys2Proof/Laws/Exec.lean ====
section
/-! SUPPORT. What an instruction can do, said once: `exec_effect` is the inversion lemma that later
proofs about every instruction start from. -/

namespace Sys2Proof.Machine

/-- The next states of an instruction, by what it does. -/
inductive Effect (i : Instr) (s : State) : State → Prop where
  /-- it raises a fault (never UndefinedOpcode, which is the sequencer's) -/
  | raised (tr : Trap) (h : ∀ op, tr ≠ .undefinedOpcode op) : Effect i s (s.raise tr)
  /-- RET -/
  | halted (r xf : BitVec 4) (hi : i = .ret r xf) : Effect i s (s.setSeq .halted)
  /-- SVC type 1 -/
  | waits (r : BitVec 4) (dA cA : Word) (hi : i = .svc r (.input dA cA)) :
      Effect i s ((s.setSeq (.waitInput { pc := s.pc, dA := dA, cA := cA })).logPort .requestLine)
  /-- SVC type 2 -/
  | emits (r : BitVec 4) (dA cA : Word) (hi : i = .svc r (.output dA cA)) :
      Effect i s ((s.logPort (.emit (outputText dA cA s))).advance 3)
  /-- any other SVC -/
  | passes (r t : BitVec 4) (hi : i = .svc r (.other t)) : Effect i s (s.advance 1)
  /-- ST -/
  | stores (r xf : BitVec 4) (adr : Word) (hi : i = .st r xf adr) (hr : r.toNat < 8) (a : Word)
      (ha : effectiveAddress xf adr s = .ok a) :
      Effect i s ((s.memWrite a (s.reg ⟨r.toNat, hr⟩)).advance 2)
  /-- LAD -/
  | loadsAddress (r xf : BitVec 4) (adr : Word) (hi : i = .lad r xf adr) (hr : r.toNat < 8) (a : Word)
      (ha : effectiveAddress xf adr s = .ok a) : Effect i s ((s.setReg ⟨r.toNat, hr⟩ a).advance 2)
  /-- LD, AND, ADDA, SUBA -/
  | results (d : BitVec 4) (hr : d.toNat < 8) (v : Word) (n : Int) (hd : destReg i = some d)
      (hw : writesFlags i = true) : Effect i s ((s.setResult ⟨d.toNat, hr⟩ v n).advance i.words)
  /-- CPA -/
  | compares (n : Int) (hd : destReg i = none) (hw : writesFlags i = true) :
      Effect i s ((s.setFlags n).advance i.words)
  /-- a taken branch -/
  | jumps (xf : BitVec 4) (adr a : Word) (hi : branchFields i = some (xf, adr))
      (ha : effectiveAddress xf adr s = .ok a) : Effect i s (s.setPc a)
  /-- a branch not taken -/
  | falls (xf : BitVec 4) (adr : Word) (hi : branchFields i = some (xf, adr))
      (hj : ∀ r, i ≠ .jump r xf adr) : Effect i s (s.advance 2)

/-- The effective address raises InvalidRegister or RangeViolation alone. -/
theorem effectiveAddress_error {xf : BitVec 4} {adr : Word} {s : State} {tr : Trap}
    (h : effectiveAddress xf adr s = .error tr) : ∀ op, tr ≠ .undefinedOpcode op := by
  have fit : ∀ n, fitA s.params.strictRange n = .error tr → ∀ op, tr ≠ .undefinedOpcode op := by
    intro n hn op
    rcases fitA_cases s.params.strictRange n with ⟨e, -⟩ | ⟨-, -, e⟩ <;> rw [e] at hn <;> cases hn
    simp
  unfold effectiveAddress at h
  split at h
  · exact fit _ h
  · rcases checkReg_cases xf with ⟨hx, e⟩ | ⟨hx, e⟩ <;> rw [e] at h
    · exact fit _ h
    · cases h
      simp

theorem withRegisters_effect {i : Instr} {s : State} {r xf : BitVec 4}
    {k : Fin 8 → Fin 8 → Host.Outcome State Fault Refusal}
    (h : ∀ (hr : r.toNat < 8) (hx : xf.toNat < 8),
      ∃ t, k ⟨r.toNat, hr⟩ ⟨xf.toNat, hx⟩ = .next t ∧ Effect i s t) :
    ∃ t, withRegisters r xf s k = .next t ∧ Effect i s t := by
  rcases withRegisters_cases r xf s k with ⟨-, e⟩ | ⟨-, -, e⟩ | ⟨hr, hx, e⟩
  · exact ⟨_, e, .raised _ (by simp)⟩
  · exact ⟨_, e, .raised _ (by simp)⟩
  · exact e ▸ h hr hx

theorem withRegisterAddress_effect {i : Instr} {s : State} {r xf : BitVec 4} {adr : Word}
    {k : Fin 8 → Word → Host.Outcome State Fault Refusal}
    (h : ∀ (hr : r.toNat < 8) (a : Word), effectiveAddress xf adr s = .ok a →
      ∃ t, k ⟨r.toNat, hr⟩ a = .next t ∧ Effect i s t) :
    ∃ t, withRegisterAddress r xf adr s k = .next t ∧ Effect i s t := by
  rcases withRegisterAddress_cases r xf adr s k with ⟨-, e⟩ | ⟨tr, -, he, e⟩ | ⟨hr, a, ha, e⟩
  · exact ⟨_, e, .raised _ (by simp)⟩
  · exact ⟨_, e, .raised tr (effectiveAddress_error he)⟩
  · exact e ▸ h hr a ha

theorem branchIf_effect {i : Instr} {s : State} {taken : Bool} {xf : BitVec 4} {adr : Word}
    (hi : branchFields i = some (xf, adr)) (hj : taken = false → ∀ r, i ≠ .jump r xf adr) :
    ∃ t, branchIf taken xf adr s = .next t ∧ Effect i s t := by
  rcases branchIf_cases taken xf adr s with ⟨tr, he, e⟩ | ⟨a, ha, e⟩
  · exact ⟨_, e, .raised tr (effectiveAddress_error he)⟩
  · cases taken
    · exact ⟨_, e, .falls xf adr hi (hj rfl)⟩
    · exact ⟨_, e, .jumps xf adr a hi ha⟩

/-- A fitted signed result is there, or the instruction raises RangeViolation. -/
theorem fitS_effect {i : Instr} {s : State} {n : Int} {k : Word → Host.Outcome State Fault Refusal}
    (h : ∃ t, k (wrap16 n) = .next t ∧ Effect i s t) :
    ∃ t, proceed (fitS s.params.strictRange n) s k = .next t ∧ Effect i s t := by
  rcases fitS_cases s.params.strictRange n with ⟨e, -⟩ | ⟨-, -, e⟩ <;> rw [e]
  · exact h
  · exact ⟨_, rfl, .raised _ (by simp)⟩

/-- What an instruction does in any state. -/
theorem exec_effect (i : Instr) (s : State) : ∃ t, exec i s = .next t ∧ Effect i s t := by
  cases i with
  | ldMem r xf adr =>
    exact withRegisterAddress_effect fun hr a _ => ⟨_, rfl, .results r hr _ _ rfl rfl⟩
  | st r xf adr =>
    exact withRegisterAddress_effect fun hr a ha => ⟨_, rfl, .stores r xf adr rfl hr a ha⟩
  | lad r xf adr =>
    exact withRegisterAddress_effect fun hr a ha => ⟨_, rfl, .loadsAddress r xf adr rfl hr a ha⟩
  | ldReg r xf => exact withRegisters_effect fun hr _ => ⟨_, rfl, .results r hr _ _ rfl rfl⟩
  | addaMem r xf adr =>
    exact withRegisterAddress_effect fun hr a _ =>
      fitS_effect ⟨_, rfl, .results r hr _ _ rfl rfl⟩
  | subaReg r xf =>
    exact withRegisters_effect fun hr _ => fitS_effect ⟨_, rfl, .results r hr _ _ rfl rfl⟩
  | andMem r xf adr =>
    exact withRegisterAddress_effect fun hr a _ => ⟨_, rfl, .results r hr _ _ rfl rfl⟩
  | andReg r xf => exact withRegisters_effect fun hr _ => ⟨_, rfl, .results r hr _ _ rfl rfl⟩
  | cpaMem r xf adr => exact withRegisterAddress_effect fun _ _ _ => ⟨_, rfl, .compares _ rfl rfl⟩
  | cpaReg r xf => exact withRegisters_effect fun _ _ => ⟨_, rfl, .compares _ rfl rfl⟩
  | jmi r xf adr => exact branchIf_effect rfl fun _ _ => by simp
  | jze r xf adr => exact branchIf_effect rfl fun _ _ => by simp
  | jump r xf adr => exact branchIf_effect rfl fun h => by simp at h
  | jpl r xf adr => exact branchIf_effect rfl fun _ _ => by simp
  | ret r xf => exact ⟨_, rfl, .halted r xf rfl⟩
  | svc r call =>
    cases call with
    | input dA cA => exact ⟨_, rfl, .waits r dA cA rfl⟩
    | output dA cA => exact ⟨_, rfl, .emits r dA cA rfl⟩
    | other t => exact ⟨_, rfl, .passes r t rfl⟩

/-- The inversion: if an instruction answers next t, t is one of the next states of `Effect`. -/
theorem effect_of_exec {i : Instr} {s t : State} (h : exec i s = .next t) : Effect i s t := by
  obtain ⟨u, e, k⟩ := exec_effect i s
  cases e.symm.trans h
  exact k

/-- The inversion of a step in READY: the effect of the instruction fetched, or UndefinedOpcode. -/
theorem effect_of_step {s t : State} (hr : s.seq = .ready) (h : step s = .next t) :
    (∃ i, s.fetch = .ok i ∧ exec i s = .next t ∧ Effect i s t) ∨
      (∃ e, s.fetch = .error e) ∧ t = s.raise (.undefinedOpcode (opField (s.memRead s.pc))) := by
  rw [step_of_ready hr] at h
  cases e : s.fetch with
  | ok i =>
    rw [e] at h
    exact .inl ⟨i, rfl, h, effect_of_exec h⟩
  | error x =>
    rw [e] at h
    cases h
    exact .inr ⟨⟨x, rfl⟩, rfl⟩

/-! ### Runs of the machine -/

theorem coreRun_of_next (M : Host.Core) {s t : M.State} (h : M.step s = .next t) (k : Nat) :
    M.run (k + 1) s = M.run k t := by
  rw [Host.Core.run, h]

theorem coreRun_of_fault (M : Host.Core) {s : M.State} {f : M.Fault} (h : M.step s = .fault f)
    (k : Nat) : M.run (k + 1) s = .fault f := by
  rw [Host.Core.run, h]

theorem coreRun_of_refused (M : Host.Core) {s : M.State} {q : M.Refusal} (h : M.step s = .refused q)
    (k : Nat) : M.run (k + 1) s = .refused q := by
  rw [Host.Core.run, h]

/-- A run whose first step answers next t goes on from t. -/
theorem run_of_next {s t : State} (h : step s = .next t) (k : Nat) :
    core.run (k + 1) s = core.run k t :=
  coreRun_of_next core h k

theorem run_of_fault {s : State} {f : Fault} (h : step s = .fault f) (k : Nat) :
    core.run (k + 1) s = .fault f :=
  coreRun_of_fault core h k

theorem run_of_refused {s : State} {q : Refusal} (h : step s = .refused q) (k : Nat) :
    core.run (k + 1) s = .refused q :=
  coreRun_of_refused core h k

end Sys2Proof.Machine
end

