-- ==== Sys2Proof/Laws/PerInstr.lean ====
section
/-! SUPPORT. Family Length: a well-formed instruction is encoded in as many words as its form says
(spec 30_encoding.md R37). -/

namespace Sys2Proof.Laws.Length

def Statement (i : Instr) : Prop :=
  ∀ m : OpcodeMap, i.wellFormed = true → (encode m i).length = i.words

theorem ldMem (r xf : BitVec 4) (adr : Word) : Statement (.ldMem r xf adr) := fun _ _ => rfl
theorem st (r xf : BitVec 4) (adr : Word) : Statement (.st r xf adr) := fun _ _ => rfl
theorem lad (r xf : BitVec 4) (adr : Word) : Statement (.lad r xf adr) := fun _ _ => rfl
theorem ldReg (r xf : BitVec 4) : Statement (.ldReg r xf) := fun _ _ => rfl
theorem addaMem (r xf : BitVec 4) (adr : Word) : Statement (.addaMem r xf adr) := fun _ _ => rfl
theorem subaReg (r xf : BitVec 4) : Statement (.subaReg r xf) := fun _ _ => rfl
theorem andMem (r xf : BitVec 4) (adr : Word) : Statement (.andMem r xf adr) := fun _ _ => rfl
theorem andReg (r xf : BitVec 4) : Statement (.andReg r xf) := fun _ _ => rfl
theorem cpaMem (r xf : BitVec 4) (adr : Word) : Statement (.cpaMem r xf adr) := fun _ _ => rfl
theorem cpaReg (r xf : BitVec 4) : Statement (.cpaReg r xf) := fun _ _ => rfl
theorem jmi (r xf : BitVec 4) (adr : Word) : Statement (.jmi r xf adr) := fun _ _ => rfl
theorem jze (r xf : BitVec 4) (adr : Word) : Statement (.jze r xf adr) := fun _ _ => rfl
theorem jump (r xf : BitVec 4) (adr : Word) : Statement (.jump r xf adr) := fun _ _ => rfl
theorem jpl (r xf : BitVec 4) (adr : Word) : Statement (.jpl r xf adr) := fun _ _ => rfl
theorem ret (r xf : BitVec 4) : Statement (.ret r xf) := fun _ _ => rfl

theorem svc (r : BitVec 4) (call : SvcCall) : Statement (.svc r call) := by
  intro m h
  cases call with
  | input dA cA => rfl
  | output dA cA => rfl
  | other t =>
    have ht : ¬(t = 1#4 ∨ t = 2#4) := by
      simpa [Instr.wellFormed, SvcCall.wellFormed, not_or] using h
    exact (if_neg ht).symm

end Sys2Proof.Laws.Length
end

