-- ==== Sys2Proof/Laws/Run.lean ====
section
/-! SUPPORT. Runs with a host that answers (`runWith`): its equations, what one action does, and that the
queue of answers has no influence on an instruction. -/

namespace Sys2Proof.Machine

@[simp] theorem andThen_next (s : State) (k : State → Host.Outcome State Fault Refusal) :
    andThen (.next s) k = k s := rfl

@[simp] theorem andThen_fault (f : Fault) (k : State → Host.Outcome State Fault Refusal) :
    andThen (.fault f) k = .fault f := rfl

@[simp] theorem andThen_refused (q : Refusal) (k : State → Host.Outcome State Fault Refusal) :
    andThen (.refused q) k = .refused q := rfl

/-! ### The queue of answers -/

/-- The state with another queue of answers. -/
abbrev State.queue (s : State) (l : List Line) : State := { s with answers := l }

@[simp] theorem State.raise_queue (s : State) (l : List Line) (t : Trap) :
    (s.queue l).raise t = (s.raise t).queue l := rfl

theorem proceed_queue {α : Type} {c : Except Trap α} {s t : State} (l : List Line)
    {k k' : α → Host.Outcome State Fault Refusal} (hk : ∀ v, k v = .next t → k' v = .next (t.queue l))
    (h : proceed c s k = .next t) : proceed c (s.queue l) k' = .next (t.queue l) := by
  cases c with
  | error tr =>
    cases h
    rfl
  | ok v => exact hk v h

theorem State.readCodes_queue (s : State) (l : List Line) (a : Word) (n : Nat) :
    (s.queue l).readCodes a n = s.readCodes a n := by
  induction n generalizing a with
  | zero => rfl
  | succ n ih => exact congrArg (s.memRead a :: ·) (ih (a + 1))

theorem outputText_queue (s : State) (l : List Line) (dA cA : Word) :
    outputText dA cA (s.queue l) = outputText dA cA s :=
  congrArg (List.map (decodeChar s.params)) (State.readCodes_queue s l dA (outputLength cA s))

theorem branchIf_queue {taken : Bool} {xf : BitVec 4} {adr : Word} {s t : State} (l : List Line)
    (h : branchIf taken xf adr s = .next t) :
    branchIf taken xf adr (s.queue l) = .next (t.queue l) := by
  refine proceed_queue l (fun v hv => ?_) h
  cases taken <;> cases hv <;> rfl

/-- No instruction reads the queue of answers or writes it. -/
theorem exec_queue {i : Instr} {s t : State} (l : List Line) (h : exec i s = .next t) :
    exec i (s.queue l) = .next (t.queue l) := by
  cases i with
  | jmi _ _ _ => exact branchIf_queue l h
  | jze _ _ _ => exact branchIf_queue l h
  | jump _ _ _ => exact branchIf_queue l h
  | jpl _ _ _ => exact branchIf_queue l h
  | ret _ _ => cases h; rfl
  | svc _ call =>
    cases call with
    | input _ _ => cases h; rfl
    | other _ => cases h; rfl
    | output dA cA =>
      cases h
      exact congrArg (fun x => Host.Outcome.next (((s.logPort (.emit x)).advance 3).queue l))
        (outputText_queue s l dA cA)
  | addaMem _ _ _ =>
    refine proceed_queue l (fun i hi => proceed_queue l (fun a ha => proceed_queue l (fun v hv => ?_) ha) hi) h
    cases hv
    rfl
  | subaReg _ _ =>
    refine proceed_queue l (fun i hi => proceed_queue l (fun a ha => proceed_queue l (fun v hv => ?_) ha) hi) h
    cases hv
    rfl
  | ldMem _ _ _ | st _ _ _ | lad _ _ _ | ldReg _ _ | andMem _ _ _ | andReg _ _ | cpaMem _ _ _ | cpaReg _ _ =>
    refine proceed_queue l (fun i hi => proceed_queue l (fun a ha => ?_) hi) h
    cases ha
    rfl

theorem State.writeCodes_queue (s : State) (l : List Line) (a : Word) (cs : List Word) :
    (s.queue l).writeCodes a cs = (s.writeCodes a cs).queue l := by
  induction cs generalizing s a with
  | nil => rfl
  | cons c cs ih => exact ih (s.memWrite a c) (a + 1)

/-- Nor does the completion of an SVC type 1. -/
theorem State.completeInput_queue (s : State) (ctx : PendingInput) (codes : List Word) (l : List Line) :
    (s.queue l).completeInput ctx codes = (s.completeInput ctx codes).queue l := by
  unfold State.completeInput
  rw [State.writeCodes_queue]
  rfl

/-! ### Steps in READY -/

/-- A step in READY answers a next state; it keeps the parameters, and the queue has no part in it. -/
theorem step_ready {s : State} (h : s.seq = .ready) :
    ∃ t, step s = .next t ∧ t.params = s.params ∧ ∀ l, step (s.queue l) = .next (t.queue l) := by
  have hq : ∀ l, (s.queue l).seq = .ready := fun _ => h
  have hf : ∀ l, (s.queue l).fetch = s.fetch := fun _ => rfl
  cases e : s.fetch with
  | error x =>
    refine ⟨s.raise (.undefinedOpcode (opField (s.memRead s.pc))), ?_, rfl, fun l => ?_⟩
    · rw [step_of_ready h, e]
      rfl
    · rw [step_of_ready (hq l), hf, e]
      rfl
  | ok i =>
    obtain ⟨t, ht, k⟩ := exec_effect i s
    refine ⟨t, by rw [step_of_ready h, e]; exact ht, by cases k <;> rfl, fun l => ?_⟩
    rw [step_of_ready (hq l), hf, e]
    exact exec_queue l ht

/-! ### Runs -/

theorem runWith_ready {host : Nat → Line} {s : State} (h : s.seq = .ready) (k n : Nat) :
    runWith host (k + 1) n s = andThen (step s) (runWith host k n) := by
  simp only [runWith, h]

theorem runWith_wait {host : Nat → Line} {s : State} {ctx : PendingInput}
    (h : s.seq = .waitInput ctx) (k n : Nat) :
    runWith host (k + 1) n s = andThen (deliverLine ctx (host n) s) (runWith host k (n + 1)) := by
  simp only [runWith, h]

/-- R58: IDLE, HALTED and FAULTED are kept. -/
theorem runWith_stopped {host : Nat → Line} {s : State}
    (h : s.seq = .idle ∨ s.seq = .halted ∨ s.seq = .faulted) (k n : Nat) :
    runWith host k n s = .next s := by
  cases k with
  | zero => rfl
  | succ k => rcases h with h | h | h <;> simp only [runWith, h]

/-- A run goes on from where a shorter one has come to. -/
theorem runWith_add {host : Nat → Line} {k n : Nat} {s t : State} (h : runWith host k n s = .next t) :
    ∃ m, ∀ j, runWith host (k + j) n s = runWith host j m t := by
  induction k generalizing n s with
  | zero =>
    cases h
    exact ⟨n, fun j => by rw [Nat.zero_add]⟩
  | succ k ih =>
    have stop : s.seq = .idle ∨ s.seq = .halted ∨ s.seq = .faulted →
        ∃ m, ∀ j, runWith host (k + 1 + j) n s = runWith host j m t := by
      intro hq
      rw [runWith_stopped hq] at h
      cases h
      exact ⟨n, fun j => by rw [runWith_stopped hq, runWith_stopped hq]⟩
    cases hq : s.seq with
    | idle => exact stop (.inl hq)
    | halted => exact stop (.inr (.inl hq))
    | faulted => exact stop (.inr (.inr hq))
    | ready =>
      obtain ⟨u, hu, -⟩ := step_ready hq
      rw [runWith_ready hq, hu] at h
      obtain ⟨m, hm⟩ := ih h
      refine ⟨m, fun j => ?_⟩
      rw [Nat.succ_add_eq_add_succ, Nat.add_succ, runWith_ready hq, hu]
      exact hm j
    | waitInput ctx =>
      rw [runWith_wait hq] at h
      cases hu : deliverLine ctx (host n) s with
      | next u =>
        rw [hu] at h
        obtain ⟨m, hm⟩ := ih h
        refine ⟨m, fun j => ?_⟩
        rw [Nat.succ_add_eq_add_succ, Nat.add_succ, runWith_wait hq, hu]
        exact hm j
      | fault f => rw [hu] at h; cases h
      | refused q => rw [hu] at h; cases h

end Sys2Proof.Machine
end

