-- ==== Sys2Proof/Tests/Slice0.lean ====
section
/-! SUPPORT. Tests: words written out from the encoding tables, the checks of WellFormed, vectors of
spec 95_test_vectors.md (each test names its vector), and for each statement with hypotheses a witness
that meets them. -/

namespace Sys2Proof.Tests

open Sys2Proof.Machine

/-! ### Helpers -/

/-- READY at 0100 with the words there, the registers and the memory words given, all flags 0. -/
def at100 (ws : List Word) (regs : List (Fin 8 × Word)) (cells : List (Word × Word)) : State :=
  regs.foldl (fun s e => s.setReg e.1 e.2)
    (cells.foldl (fun s e => s.memWrite e.1 e.2)
      ({ State.reset with pc := 0x0100 }.placeAndStart ws))

def setF (o s z : Bool) (t : State) : State := { t with flags := { o := o, s := s, z := z } }

def setStrict (t : State) : State := { t with params := { t.params with strictRange := true } }

def waiting (dA cA : Word) (lines : List Line) : State :=
  { State.reset with pc := 0x0100, seq := .waitInput { pc := 0x0100, dA := dA, cA := cA }, answers := lines }

/-- The outcome is a next state with the property. -/
def holds (o : Host.Outcome State Fault Refusal) (p : State → Bool) : Bool :=
  match o with
  | .next t => p t
  | .fault _ => false
  | .refused _ => false

/-- After one step: GR i holds v, the flags are the triple, pc is p, and the unit is READY. -/
def gives (t : State) (i : Fin 8) (v : Word) (f : Bool × Bool × Bool) (p : Word) : Bool :=
  holds (step t) fun u =>
    u.reg i == v && u.flags == { o := f.1, s := f.2.1, z := f.2.2 } && u.pc == p && u.seq == .ready

/-- After one step: FAULTED with the record, the old registers, flags, memory and pc. -/
def faults (t : State) (c : Cause) (w : Word) (n : Int) : Bool :=
  holds (step t) fun u =>
    u == { t with seq := .faulted, fault := { cause := c, fpc := 0x0100, fword := w, finfo := n } }

/-! ### Words written out bit by bit (30_encoding.md R36, R37, R45): opcode, r, xf -/

theorem test_decode_ldMem : decode OpcodeMap.standard [0b0001000000010010, 0x0010] = .ok (.ldMem 1 2 0x0010, []) := by decide
theorem test_decode_st : decode OpcodeMap.standard [0b0001000100010010, 0x0030] = .ok (.st 1 2 0x0030, []) := by decide
theorem test_decode_lad : decode OpcodeMap.standard [0b0001001010100000, 0x0020] = .ok (.lad 10 0 0x0020, []) := by decide
theorem test_decode_ldReg : decode OpcodeMap.standard [0b0001010000000111] = .ok (.ldReg 0 7, []) := by decide
theorem test_decode_addaMem : decode OpcodeMap.standard [0b0010000000010000, 0x0011] = .ok (.addaMem 1 0 0x0011, []) := by decide
theorem test_decode_subaReg : decode OpcodeMap.standard [0b0010010110011000] = .ok (.subaReg 9 8, []) := by decide
theorem test_decode_andMem : decode OpcodeMap.standard [0b0011000000010000, 0x0040] = .ok (.andMem 1 0 0x0040, []) := by decide
theorem test_decode_andReg : decode OpcodeMap.standard [0b0011010001000100] = .ok (.andReg 4 4, []) := by decide
theorem test_decode_cpaMem : decode OpcodeMap.standard [0b0100000000010000, 0x0050] = .ok (.cpaMem 1 0 0x0050, []) := by decide
theorem test_decode_cpaReg : decode OpcodeMap.standard [0b0100010000010010] = .ok (.cpaReg 1 2, []) := by decide
theorem test_decode_jmi : decode OpcodeMap.standard [0b0110000100000000, 0x000A] = .ok (.jmi 0 0 0x000A, []) := by decide
theorem test_decode_jze : decode OpcodeMap.standard [0b0110001100001001, 0x0020] = .ok (.jze 0 9 0x0020, []) := by decide
theorem test_decode_jump : decode OpcodeMap.standard [0b0110010000000011, 0x0010] = .ok (.jump 0 3 0x0010, []) := by decide
theorem test_decode_jpl : decode OpcodeMap.standard [0b0110010111110000, 0x0006] = .ok (.jpl 15 0 0x0006, []) := by decide
theorem test_decode_ret : decode OpcodeMap.standard [0b1000000111111001] = .ok (.ret 15 9, []) := by decide
theorem test_decode_svc_input : decode OpcodeMap.standard [0b1111000000010001, 0x0040, 0x0050] = .ok (.svc 1 (.input 0x0040 0x0050), []) := by decide
theorem test_decode_svc_output : decode OpcodeMap.standard [0b1111000000000010, 0x0040, 0x0050] = .ok (.svc 0 (.output 0x0040 0x0050), []) := by decide
theorem test_decode_svc_other : decode OpcodeMap.standard [0b1111000011110011, 0x0040] = .ok (.svc 15 (.other 3), [0x0040]) := by decide
theorem test_decode_undefined : decode OpcodeMap.standard [0x1312] = .error (.undefinedOpcode 0x13) := by decide
theorem test_decode_no_word : decode OpcodeMap.standard [] = .error .noWord := by decide
theorem test_decode_cut_short : decode OpcodeMap.standard [0xF001, 0x0040] = .error .missingAddressWord := by decide
/-- E11: opcode 25, gr1 = 1, gr2 = 2 packs to 2512. -/
theorem test_pack : packWord 0x25 1 2 = 0x2512 := by decide
theorem test_table_word : decodeTableWord 16 0xF002 = some (.svc 0 (.output 0 0)) := by decide
/-- R45, R47: the values below 0x40 that the default map defines, and no other. -/
theorem test_defined_below_0x40 :
    (List.range 64).all (fun n => (OpcodeMap.standard.formOf (BitVec.ofNat 8 n)).isSome
      == [0x10, 0x11, 0x12, 0x14, 0x20, 0x25, 0x30, 0x34].contains n) = true := by
  decide +kernel

/-! ### The checks refuse ill-formed terms -/

theorem test_illformed_subtype_1 : (Instr.svc 0 (.other 1)).wellFormed = false := by decide
theorem test_illformed_subtype_2 : (Instr.svc 0 (.other 2)).wellFormed = false := by decide
theorem test_illformed_map : { OpcodeMap.standard with st := 0x10 }.wellFormed = false := by decide
theorem test_illformed_memory_order : Memory.wf [(5, 1), (3, 2)] = false := by decide
theorem test_illformed_memory_repeat : Memory.wf [(5, 1), (5, 2)] = false := by decide
theorem test_illformed_memory_zero : Memory.wf [(5, 0)] = false := by decide
theorem test_illformed_memory_range : Memory.wf [(65536, 1)] = false := by decide

/-! ### Vectors of 95_test_vectors.md -/

/-- V-LD1 -/
theorem test_ldReg_negative : gives (setF false false true (at100 [0x1412] [(2, 0xFFFF)] [])) 1 0xFFFF (false, true, false) 0x0101 = true := by decide
/-- V-LD2 -/
theorem test_ldReg_same : gives (setF false true false (at100 [0x1433] [] [])) 3 0 (false, false, true) 0x0101 = true := by decide
/-- V-LD8 -/
theorem test_ldMem_wraps : gives (at100 [0x1012, 0xFFFF] [(2, 2)] [(1, 9)]) 1 9 (false, false, false) 0x0102 = true := by decide
/-- V-LD9 -/
theorem test_ldMem_index_is_r : gives (at100 [0x1011, 0] [(1, 0x0030)] [(0x0030, 0xFFFE)]) 1 0xFFFE (false, true, false) 0x0102 = true := by decide
/-- V-LAD2 -/
theorem test_lad_increment : gives (setF false true false (at100 [0x1211, 1] [(1, 0xFFFF)] [])) 1 0 (false, true, false) 0x0102 = true := by decide
/-- V-RV8 -/
theorem test_lad_strict : gives (setStrict (at100 [0x1212, 0x8000] [(2, 0xFFFF)] [])) 1 0x7FFF (false, false, false) 0x0102 = true := by decide
/-- V-ST2 -/
theorem test_st_indexed : holds (step (at100 [0x1112, 0x0030] [(1, 0xABCD), (2, 0xFFF0)] [])) (fun u => u.memRead 0x0020 == 0xABCD && u.pc == 0x0102) = true := by decide
/-- V-M2 -/
theorem test_st_own_address_word : holds (step (at100 [0x1110, 0x0101] [(1, 0x0055)] [])) (fun u => u.memRead 0x0101 == 0x0055 && u.memRead 0x0055 == 0 && u.pc == 0x0102) = true := by decide
/-- V-AND3 -/
theorem test_andReg_bit15 : gives (setF false false true (at100 [0x3444] [(4, 0x8000)] [])) 4 0x8000 (false, true, false) 0x0101 = true := by decide
/-- V-AND1 -/
theorem test_andReg_masks : gives (at100 [0x3412] [(1, 0x00FF), (2, 0x0F0F)] []) 1 0x000F (false, false, false) 0x0101 = true := by decide
/-- V-AND4 -/
theorem test_andMem : gives (at100 [0x3010, 0x0040] [(1, 0xFFFF)] [(0x0040, 0x8001)]) 1 0x8001 (false, true, false) 0x0102 = true := by decide
/-- V-AND5 -/
theorem test_andMem_unset : gives (at100 [0x3010, 0x0041] [(1, 0xFFFF)] []) 1 0 (false, false, true) 0x0102 = true := by decide
/-- V-SUB4 -/
theorem test_suba_wraps_negative : gives (at100 [0x2512] [(1, 0x8000), (2, 1)] []) 1 0x7FFF (false, true, false) 0x0101 = true := by decide
/-- V-RV3 -/
theorem test_suba_strict : faults (setStrict (at100 [0x2512] [(1, 0x8000), (2, 1)] [])) .rangeViolation 0x2512 (-32769) = true := by decide
/-- V-ADD2 -/
theorem test_adda_wraps_positive : gives (at100 [0x2010, 0x0011] [(1, 0x7FFF)] [(0x0011, 1)]) 1 0x8000 (false, false, false) 0x0102 = true := by decide
/-- V-RV1 -/
theorem test_adda_strict : faults (setF false true false (setStrict (at100 [0x2010, 0x0011] [(1, 0x7FFF)] [(0x0011, 1)]))) .rangeViolation 0x2010 32768 = true := by decide
/-- V-CPA3 -/
theorem test_cpaReg_exact_greater : gives (setF false true false (at100 [0x4412] [(1, 0x7FFF), (2, 0x8000)] [])) 1 0x7FFF (false, false, false) 0x0101 = true := by decide
/-- V-RV7 -/
theorem test_cpaReg_strict : gives (setStrict (at100 [0x4412] [(1, 0x7FFF), (2, 0x8000)] [])) 1 0x7FFF (false, false, false) 0x0101 = true := by decide
/-- V-CPA5 -/
theorem test_cpaMem_equal : gives (at100 [0x4010, 0x0050] [(1, 0xFFFE)] [(0x0050, 0xFFFE)]) 1 0xFFFE (false, false, true) 0x0102 = true := by decide
/-- E3 -/
theorem test_cpaMem_less : gives (at100 [0x4010, 0x0050] [(1, 3)] [(0x0050, 9)]) 1 3 (false, true, false) 0x0102 = true := by decide
/-- V-J6 -/
theorem test_jmi_taken : gives (setF false true false (at100 [0x6100, 0x000A] [] [])) 0 0 (false, true, false) 0x000A = true := by decide
/-- V-J7 -/
theorem test_jmi_not_taken : gives (setF false false true (at100 [0x6100, 0x000A] [] [])) 0 0 (false, false, true) 0x0102 = true := by decide
/-- V-J5 -/
theorem test_jze_draw : gives (setF false true true (at100 [0x6300, 0x0010] [] [])) 0 0 (false, true, true) 0x0010 = true := by decide
/-- V-F8 -/
theorem test_jze_bad_index : faults (at100 [0x6309, 0x0020] [] []) .invalidRegister 0x6309 9 = true := by decide
/-- V-J2 -/
theorem test_jump_indexed : gives (at100 [0x6403, 0x0010] [(3, 0xFFF0)] []) 3 0xFFF0 (false, false, false) 0x0000 = true := by decide
/-- V-F10 -/
theorem test_jump_ignores_r : gives (at100 [0x64F0, 0x0020] [] []) 0 0 (false, false, false) 0x0020 = true := by decide
/-- V-J9 -/
theorem test_jpl_zero : gives (setF false false true (at100 [0x6500, 0x0006] [] [])) 0 0 (false, false, true) 0x0102 = true := by decide
/-- V-J11 -/
theorem test_jpl_ignores_r : gives (at100 [0x65F0, 0x0006] [] []) 0 0 (false, false, false) 0x0006 = true := by decide
/-- V-R2 -/
theorem test_ret : holds (step (at100 [0x81FF] [] [])) (fun u => u.seq == .halted && u.pc == 0x0100) = true := by decide
/-- V-S2 -/
theorem test_svc_0 : gives (setF false true false (at100 [0xF000, 0x0040, 0x0050] [] [])) 0 0 (false, true, false) 0x0101 = true := by decide
/-- V-SV6 -/
theorem test_svc_output : holds (step (at100 [0xF002, 0x0040, 0x0050] [] [(0x0040, 0x0041), (0x0041, 0x0042), (0x0042, 0x0043), (0x0050, 2)])) (fun u => u.port == [.emit [0x41, 0x42]] && u.pc == 0x0103) = true := by decide
/-- V-SV8: a length with bit 15 set emits the empty line. -/
theorem test_svc_output_negative : holds (step (at100 [0xF002, 0x0040, 0x0050] [] [(0x0050, 0x8000)])) (fun u => u.port == [.emit []]) = true := by decide
/-- V-SV3: the count is written last. -/
theorem test_wait_count_last : holds (step (waiting 0x0040 0x0041 [[0x58, 0x59, 0x5A]])) (fun u => u.memRead 0x0040 == 0x58 && u.memRead 0x0041 == 3 && u.memRead 0x0042 == 0x5A && u.pc == 0x0103 && u.seq == .ready) = true := by decide
/-- V-SV4: the data addresses wrap. -/
theorem test_wait_wraps : holds (step (waiting 0xFFFF 0x0050 [[0x41, 0x42]])) (fun u => u.memRead 0xFFFF == 0x41 && u.memRead 0 == 0x42 && u.memRead 0x0050 == 2) = true := by decide
/-- V-F7: r is checked first. -/
theorem test_fault_order : faults (at100 [0x2598] [] []) .invalidRegister 0x2598 9 = true := by decide
/-- V-RV5 -/
theorem test_strict_address : faults (setStrict (at100 [0x1012, 0] [(2, 0xFFFF)] [])) .rangeViolation 0x1012 (-1) = true := by decide
/-- V-F2 -/
theorem test_undefined_opcode : faults (at100 [0x1312] [(1, 5)] []) .undefinedOpcode 0x1312 0x13 = true := by decide
/-- V-RV10: the address word of an instruction at FFFF is at 0000. -/
theorem test_fetch_wraps : holds (step { ({ State.reset with pc := 0xFFFF }.placeAndStart [0x1010, 0x0020]) with mem := [(0, 0x0020), (0x0020, 5), (0xFFFF, 0x1010)] }) (fun u => u.reg 1 == 5 && u.pc == 1) = true := by decide
/-- The host's word runs as the first instruction after reset: ADDA GR0,0000 adds its own word. -/
theorem test_withFetchWord : holds (step (State.reset.withFetchWord 16 0x2000)) (fun u => u.reg 0 == 0x2000 && u.pc == 2) = true := by decide

/-! ### Witnesses: concrete states and operands that meet the hypotheses of each statement -/

/-- STRICT_RANGE, GR7 = 1, GR6 = 7FFF: FFFE + GR7 fits an address and FFFF + GR7 does not. -/
def edge : State := setStrict (at100 [0x1412] [(7, 1), (6, 0x7FFF)] [(0x0011, 0xFFFF)])

theorem witness_DecodeOfEncodeIsTheInstruction : OpcodeMap.standard.wellFormed = true ∧ (Instr.svc 15 (.other 15)).wellFormed = true := by decide
theorem witness_EncodeOfDecodeIsTheWords : decode OpcodeMap.standard [0xF011, 0xFFFF, 0, 7] = .ok (.svc 1 (.input 0xFFFF 0), [7]) := by decide
theorem witness_UnassignedOpcodesAreUndefined : ∀ f, OpcodeMap.standard.opcode f ≠ opField 0x0000 := by intro f; cases f <;> decide
theorem witness_LengthIsToldByWordZero : decode OpcodeMap.standard (0xF003 :: [1, 2]) = .ok (.svc 0 (.other 3), [1, 2]) := by decide
theorem witness_EffectiveAddressIsBasePlusIndex :
    8 ≤ (8 : BitVec 4).toNat ∧ ((7 : BitVec 4).toNat < 8 ∧ addressFits 7 0xFFFE edge) ∧
      ¬addressFits 7 0xFFFF edge ∧ (0 : BitVec 4) = 0#4 ∧ (7 : BitVec 4) ≠ 0#4 := by decide
theorem witness_MemoryWriteSetsOneWord : edge.mem.wf = true ∧ (0x0000 : Word) ≠ 0xFFFF := by decide
theorem witness_UnsetAddressesReadZero :
    (∀ v, ((6 : Word).toNat, v) ∉ ([(5, 7)] : Memory)) ∧ ∀ e ∈ [((5 : Word), (1 : Word))], e.1 ≠ 6 := by
  exact ⟨fun v h => absurd (congrArg Prod.fst (List.mem_singleton.1 h)) (show (6 : Word).toNat ≠ 5 from Nat.succ_ne_self 5),
    fun e h => List.mem_singleton.1 h ▸ (show (5 : Word) ≠ 6 by decide)⟩

/-- The clauses of the RR statements: r = 7 and xf = 0; r = 8; r = 7 and xf = 8. -/
theorem witness_LdRegCopiesAndSetsFlags : ((7 : BitVec 4).toNat < 8 ∧ (0 : BitVec 4).toNat < 8) ∧ 8 ≤ (8 : BitVec 4).toNat := by decide
theorem witness_AndRegMasksAndSetsFlags : ((0 : BitVec 4).toNat < 8 ∧ (7 : BitVec 4).toNat < 8) ∧ 8 ≤ (8 : BitVec 4).toNat := by decide
theorem witness_CpaRegFlagsTheExactDifference : ((7 : BitVec 4).toNat < 8 ∧ (7 : BitVec 4).toNat < 8) ∧ 8 ≤ (15 : BitVec 4).toNat := by decide
/-- 7FFF - 0 fits and 7FFF + 1 does not: GR6 - GR0 = 32767, GR6 - Mem = 32768 with FFFF in GR5. -/
theorem witness_SubaWrapsAndFlagsTheExactDifference :
    resultFits (edge.gr[6].toInt - edge.gr[0].toInt) edge ∧
      ¬resultFits ((edge.setReg 5 0xFFFF).gr[6].toInt - (edge.setReg 5 0xFFFF).gr[5].toInt) (edge.setReg 5 0xFFFF) := by decide
/-- The clauses of the RM statements: r = 7 with an address that just fits; r = 8; xf = 8; an address
that just does not fit. -/
theorem witness_LdMemLoadsAndSetsFlags : (7 : BitVec 4).toNat < 8 ∧ addressFits 7 0xFFFE edge ∧ 8 ≤ (8 : BitVec 4).toNat ∧ ¬addressFits 7 0xFFFF edge := by decide
theorem witness_LadLoadsTheAddress : (0 : BitVec 4).toNat < 8 ∧ addressFits 0 0xFFFF edge ∧ 8 ≤ (8 : BitVec 4).toNat ∧ ¬addressFits 7 0xFFFF edge := by decide
theorem witness_StStoresTheRegister : (7 : BitVec 4).toNat < 8 ∧ addressFits 7 0x0000 edge ∧ 8 ≤ (15 : BitVec 4).toNat ∧ ¬addressFits 7 0xFFFF edge := by decide
theorem witness_AndMemMasksAndSetsFlags : (7 : BitVec 4).toNat < 8 ∧ addressFits 7 0xFFFE edge ∧ 8 ≤ (8 : BitVec 4).toNat ∧ ¬addressFits 7 0xFFFF edge := by decide
theorem witness_CpaMemFlagsTheExactDifference : (0 : BitVec 4).toNat < 8 ∧ addressFits 7 0xFFFE edge ∧ 8 ≤ (8 : BitVec 4).toNat ∧ ¬addressFits 7 0xFFFF edge := by decide
/-- 7FFF + FFFF fits, 7FFF + 1 does not (the word at 0100 of the second state is 1). -/
theorem witness_AddaWrapsAndFlagsTheExactSum :
    addressFits 0 0x0011 edge ∧
      resultFits (edge.gr[6].toInt + (edge.memRead (operandAddress 0 0x0011 edge)).toInt) edge ∧
      ¬resultFits (edge.gr[6].toInt + ((edge.memWrite 0x0011 1).memRead (operandAddress 0 0x0011 edge)).toInt) edge := by decide
theorem witness_JumpGoesToTheTarget : addressFits 7 0xFFFE edge ∧ ¬addressFits 7 0xFFFF edge ∧ 8 ≤ (8 : BitVec 4).toNat := by decide
theorem witness_JzeBranchesOnZero : (setF false false true edge).flags.z = true ∧ edge.flags.z = false ∧ addressFits 7 0xFFFE (setF false false true edge) ∧ ¬addressFits 7 0xFFFF edge := by decide
theorem witness_JmiBranchesOnSign : (setF false true false edge).flags.s = true ∧ edge.flags.s = false ∧ addressFits 7 0xFFFE (setF false true false edge) ∧ ¬addressFits 7 0xFFFF edge := by decide
theorem witness_JplBranchesOnPlus : (edge.flags.s = false ∧ edge.flags.z = false) ∧ (setF false false true edge).flags.z = true ∧ (setF false true false edge).flags.s = true ∧ addressFits 7 0xFFFE edge ∧ ¬addressFits 7 0xFFFF edge := by decide
theorem witness_SvcOtherIsOneWordNoOp : ((0 : BitVec 4) ≠ 1#4 ∧ (0 : BitVec 4) ≠ 2#4) ∧ (3 : BitVec 4) ≠ 1#4 ∧ (3 : BitVec 4) ≠ 2#4 := by decide
theorem witness_SvcInputWaitsWithoutAnAnswer :
    (waiting 0x40 0x50 []).answers = [] ∧ (waiting 0x40 0x50 [[0x10000]]).answers = [0x10000] :: [] ∧
      encodeLine (waiting 0x40 0x50 [[0x10000]]).params [0x10000] = none := by decide
/-- k = 0 lies outside the count address, k = 1 on it; 0042 lies outside both. -/
theorem witness_SvcInputWritesTheLineThenTheCount :
    (waiting 0x40 0x41 [[0xFFFF, 0x42]]).mem.wf = true ∧
      encodeLine (waiting 0x40 0x41 [[0xFFFF, 0x42]]).params [0xFFFF, 0x42] = some [0xFFFF, 0x42] ∧
      (0x40 : Word) + BitVec.ofNat 16 0 ≠ 0x41 ∧
      (0x42 : Word) ≠ 0x41 ∧ ∀ k < 2, (0x42 : Word) ≠ 0x40 + BitVec.ofNat 16 k := by decide
theorem witness_EncodedLinesAreTheCodesInOrder :
    standardParams.encodeTable = [] ∧ encodeLine standardParams [0, 65535] = some [0, 0xFFFF] ∧
      encodeLine standardParams [65536] = none := by decide
theorem witness_StepRunsTheDecodedInstruction :
    edge.seq = .ready ∧ edge.params.opcodes.wellFormed = true ∧ (Instr.ldReg 1 2).wellFormed = true ∧
      [edge.memRead edge.pc, edge.memRead (edge.pc + 1), edge.memRead (edge.pc + 2)] =
        encode edge.params.opcodes (.ldReg 1 2) ++ [0, 0] := by decide
theorem witness_UndefinedOpcodeFaultsAtTheFetch :
    (at100 [] [] []).seq = .ready ∧
      ∀ f, (at100 [] [] []).params.opcodes.opcode f ≠ opField ((at100 [] [] []).memRead (at100 [] [] []).pc) :=
  ⟨rfl, by intro f; cases f <;> decide⟩
theorem witness_StoppedUnitsDoNotStep : State.reset.seq = .idle ∧ (State.reset.setSeq .halted).seq = .halted ∧ (edge.raise (.invalidRegister 9)).seq = .faulted := by decide
theorem witness_PlacedInstructionRunsNext : edge.mem.wf = true ∧ edge.params.opcodes.wellFormed = true ∧ (Instr.svc 0 (.input 1 2)).wellFormed = true := by decide
theorem witness_FaultOrderIsRThenXf :
    (usedR (.ldReg 8 15) = some 8 ∧ 8 ≤ (8 : BitVec 4).toNat) ∧
      (namesNoRegister (usedR (.jze 15 8 0)) = false ∧ usedXf (.jze 15 8 0) = some 8) ∧
      namesNoRegister (usedR (.st 7 15 0)) = false ∧ usedXf (.st 7 15 0) = some 15 := by decide
theorem witness_FaultedStepsArePrecise : (at100 [0x1490] [] []).seq = .ready ∧ holds (step (at100 [0x1490] [] [])) (fun t => t.seq == .faulted) = true := by decide
theorem witness_RangeViolationNeedsStrictRange :
    (at100 [0x2512] [(1, 0x8000), (2, 1)] []).seq = .ready ∧ (at100 [0x2512] [(1, 0x8000), (2, 1)] []).params.strictRange = false ∧
      (at100 [0x2512] [(1, 0x8000), (2, 1)] []).fault.cause ≠ .rangeViolation ∧
      holds (step (at100 [0x2512] [(1, 0x8000), (2, 1)] [])) (fun _ => true) = true := by decide
theorem witness_OnlyTheDestinationRegisterChanges :
    (∃ t, exec (.ldReg 7 6) edge = .next t) ∧ ∀ d, destReg (.ldReg 7 6) = some d → ((0 : Fin 8) : Nat) ≠ d.toNat :=
  ⟨⟨_, rfl⟩, by intro d h; cases h; decide⟩
theorem witness_FlagsChangeOnlyAsTheTableSays :
    (writesFlags (.lad 1 0 0) = false ∧ ∃ t, exec (.lad 1 0 0) edge = .next t) ∧
      (writesFlags (.ldReg 7 6) = true ∧ ∃ t, exec (.ldReg 7 6) edge = .next t) ∧
      ∃ t, exec (.ldReg 8 6) edge = .next t :=
  ⟨⟨rfl, _, rfl⟩, ⟨rfl, _, rfl⟩, _, rfl⟩
theorem witness_OnlyStStoresAndOnlyAtItsAddress :
    (∃ t, exec (.st 6 7 0xFFFE) edge = .next t) ∧ effectiveAddress 7 0xFFFE edge = .ok 0xFFFF ∧
      effectiveAddress 7 0xFFFF edge = .error (.rangeViolation 65536) ∧
      (∀ r xf adr, Instr.ldReg 7 6 ≠ .st r xf adr) ∧ ∃ t, exec (.ldReg 7 6) edge = .next t :=
  ⟨⟨_, rfl⟩, by decide, by decide, by simp, _, rfl⟩
theorem witness_OtherStateChangesOnlyAsNamed :
    (∃ t, exec (.jump 0 0 5) edge = .next t) ∧
      ∀ r dA cA, Instr.jump 0 0 5 ≠ .svc r (.input dA cA) ∧ Instr.jump 0 0 5 ≠ .svc r (.output dA cA) :=
  ⟨⟨_, rfl⟩, by simp⟩
theorem witness_PcAdvancesByTheInstructionsWords : (Instr.svc 0 (.other 0)).wellFormed = true ∧ ∃ t, exec (.svc 0 (.other 0)) edge = .next t := ⟨rfl, _, rfl⟩
theorem witness_RetAndOnlyRetHalts :
    (at100 [0x81FF] [] []).seq = .ready ∧
      opField ((at100 [0x81FF] [] []).memRead (at100 [0x81FF] [] []).pc) = (at100 [0x81FF] [] []).params.opcodes.ret ∧
      holds (step (at100 [0x81FF] [] [])) (fun t => t.seq == .halted) = true := by decide
theorem witness_UnreadRegistersDoNotMatter :
    (∀ f ∈ readRegs (.addaMem 6 7 0), f.toNat ≠ ((0 : Fin 8) : Nat)) ∧
      (∀ d, destReg (.addaMem 6 7 0) = some d → d.toNat ≠ ((0 : Fin 8) : Nat)) ∧
      ∃ t, exec (.addaMem 6 7 0) edge = .next t :=
  ⟨by decide, by intro d h; cases h; decide, _, rfl⟩
theorem witness_OverflowFlagIsNeverRead : ∃ t, exec (.jze 0 0 5) edge = .next t := ⟨_, rfl⟩
theorem witness_CompareThenBranch : (7 : BitVec 4).toNat < 8 ∧ (0 : BitVec 4).toNat < 8 ∧ addressFits 7 0xFFFE edge := by decide
theorem witness_StoredWordIsFetchedNext : edge.mem.wf = true ∧ addressFits 7 0x0101 edge ∧ operandAddress 7 0x0101 edge = edge.pc + 2 := by decide
theorem witness_MemoryFollowsThePortTransactions : ∃ t, exec (.st 6 7 0) edge = .next t := ⟨_, rfl⟩
theorem witness_InvariantHoldsAtReset : OpcodeMap.standard.wellFormed = true ∧ Memory.wf [(0, 1), (65535, 2)] = true := by decide
theorem inv_edge : Inv edge := ⟨by decide, by decide, by decide, by decide⟩
theorem witness_StepKeepsTheInvariant : Inv edge ∧ ∃ t, step edge = .next t := ⟨inv_edge, _, rfl⟩
/-- The invariant also holds, and a step goes on, in a state that waits for its line. -/
theorem witness_StepKeepsTheInvariant_waiting :
    Inv { waiting 1 2 [[0x41]] with mem := [(0x0101, 1), (0x0102, 2)] } ∧
      ∃ t, step { waiting 1 2 [[0x41]] with mem := [(0x0101, 1), (0x0102, 2)] } = .next t :=
  ⟨⟨by decide, by decide, by decide, by decide⟩, _, rfl⟩
theorem witness_HostCommandsKeepTheInvariant : Inv edge ∧ ∃ t q, perform (.start 7) edge = .next (t, q) := ⟨inv_edge, _, _, rfl⟩
theorem witness_StartSetsPcAndClearsTheCause : (∀ ctx, edge.seq ≠ .waitInput ctx) ∧ (waiting 1 2 []).seq = .waitInput { pc := 0x0100, dA := 1, cA := 2 } :=
  ⟨fun _ h => (by cases h), rfl⟩
theorem witness_DriverWritesOnlyAStoppedUnit : State.reset.seq = .idle ∧ edge.seq = .ready ∧ (waiting 1 2 []).seq = .waitInput { pc := 0x0100, dA := 1, cA := 2 } := by decide
theorem witness_StepReportsStillRunning :
    (edge.seq = .ready ∧ holds (step edge) (fun t => t.seq == .ready) = true) ∧
      holds (step (at100 [0x8100] [] [])) (fun t => t.seq == .halted) = true ∧
      holds (step (at100 [0] [] [])) (fun t => t.seq == .faulted) = true ∧
      holds (step (at100 [0xF001, 1, 2] [] [])) (fun t => t.seq == .waitInput { pc := 0x0100, dA := 1, cA := 2 }) = true := by decide
theorem witness_AnswerCompletesTheWaitingStep :
    (waiting 1 2 []).seq = .waitInput { pc := 0x0100, dA := 1, cA := 2 } ∧ encodeLine (waiting 1 2 []).params [] = some [] ∧
      ∀ ctx, edge.seq ≠ .waitInput ctx :=
  ⟨rfl, by decide, fun _ h => (by cases h)⟩

/-- A host that answers every request with an empty line. -/
def emptyLines : Nat → Line := fun _ => []

theorem emptyLines_answer : HostAnswers standardParams emptyLines := fun _ => rfl

/-- RET at 0100, no register or flag named. -/
def retPremises : RunPremises :=
  { entry := 0x0100, image := [(0x0100, 0x8100)], gr := [], o := none, s := none, z := none,
    params := standardParams }

/-- SVC type 1 at 0100 and RET at 0103, GR7 and all flags named. -/
def inputPremises : RunPremises :=
  { entry := 0x0100
    image := [(0x0100, 0xF001), (0x0101, 0x0040), (0x0102, 0x0050), (0x0103, 0x8100)]
    gr := [(7, 9)], o := some false, s := some true, z := some false, params := standardParams }

def inputState : State :=
  setF false true false
    (at100 [0xF001, 0x0040, 0x0050] [(7, 9)] [(0x0103, 0x8100)])

theorem inputState_launched : Launched inputPremises emptyLines inputState :=
  ⟨rfl, rfl, rfl, rfl, by decide, fun _ he => List.mem_singleton.1 he ▸ rfl,
    fun _ hb => Option.mem_some.1 hb ▸ rfl, fun _ hb => Option.mem_some.1 hb ▸ rfl,
    fun _ hb => Option.mem_some.1 hb ▸ rfl, rfl, emptyLines_answer⟩

theorem witness_ResetIsIdleUntilStart : HostAnswers standardParams emptyLines := emptyLines_answer
/-- The clauses of RunIsRepeatedStepping: a host that answers, and one whose line has no code. -/
theorem witness_RunIsRepeatedStepping :
    (∃ t, runWith emptyLines 3 0 inputState = .next t) ∧
      runWith (fun _ => [65536]) 2 0 inputState = .fault .hostBrokeLineDuty :=
  ⟨⟨_, rfl⟩, rfl⟩
/-- The clauses of LaunchedRunsEndInOneWay: launched, waiting after one action, HALTED after three. -/
theorem witness_LaunchedRunsEndInOneWay :
    Launched inputPremises emptyLines inputState ∧
      (∃ t, runWith emptyLines 1 0 inputState = .next t ∧
        t.seq = .waitInput { pc := 0x0100, dA := 0x0040, cA := 0x0050 }) ∧
      ∃ t, EndsNormally emptyLines inputState t :=
  ⟨inputState_launched, ⟨_, rfl, rfl⟩, _, 3, rfl, rfl⟩
/-- A claim of a normal end that holds, of every draw of the registers and flags and every host. -/
theorem witness_LaunchedRunsEndInOneWay_claim :
    NormalEndClaim retPremises fun _ s t => t = s.setSeq .halted := by
  intro host s h
  have hf : s.fetch = .ok (.ret 0 0) := by
    unfold State.fetch State.fetchWords State.memRead
    rw [h.params, h.memory, h.entry]
    rfl
  refine ⟨s.setSeq .halted, ⟨1, ?_, rfl⟩, rfl⟩
  rw [runWith_ready h.ready, step_of_ready h.ready, hf]
  rfl
theorem witness_RunsEndInOneState : ∃ t, RunEndsAt (at100 [0x8100] [] []) t := ⟨_, 1, rfl, .inl rfl⟩

end Sys2Proof.Tests
end

section
/-! PROOF. What an instruction does to the condition flags (spec 10_state.md R14 to R16). -/

namespace Sys2Proof.Machine

/-- R64: every exact integer gives one of R14's three triples, and O is 0 in each. -/
theorem flagsOf_cases (n : Int) :
    flagsOf n = { o := false, s := false, z := false } ∨
      flagsOf n = { o := false, s := false, z := true } ∨
      flagsOf n = { o := false, s := true, z := false } := by
  rcases lt_trichotomy n 0 with hneg | rfl | hpos
  · exact .inr (.inr (by simp [flagsOf, hneg, hneg.ne]))
  · exact .inr (.inl rfl)
  · exact .inl (by simp [flagsOf, hpos.le, hpos.ne'])

/-- R15: a branch writes no flag. -/
theorem writesFlags_of_branchFields {i : Instr} {p : BitVec 4 × Word}
    (h : branchFields i = some p) : writesFlags i = false := by
  cases i with
  | jmi | jze | jump | jpl => rfl
  | _ => cases h

/-- R14 to R16 over every effect: a fault, flags left by an instruction that is no flag writer, or
flags set from an exact integer by one that is. -/
theorem Effect.flags_cases {i : Instr} {s t : State} (h : Effect i s t) :
    (∃ tr, t = s.raise tr) ∨ (writesFlags i = false ∧ t.flags = s.flags) ∨
      (writesFlags i = true ∧ ∃ n, t.flags = flagsOf n) := by
  cases h with
  | raised tr _ => exact .inl ⟨tr, rfl⟩
  | halted _ _ hi | waits _ _ _ hi | emits _ _ _ hi | passes _ _ hi | stores _ _ _ hi
  | loadsAddress _ _ _ hi => exact .inr (.inl ⟨hi ▸ rfl, rfl⟩)
  | jumps _ _ _ hi | falls _ _ hi => exact .inr (.inl ⟨writesFlags_of_branchFields hi, rfl⟩)
  | results _ _ _ n _ hw | compares n _ hw => exact .inr (.inr ⟨hw, n, rfl⟩)

/-- Settles O40: by `Effect.flags_cases`, and a set triple is one of `flagsOf_cases`. -/
theorem flagsChangeOnlyAsTheTableSays : Obligations.FlagsChangeOnlyAsTheTableSays := by
  intro i s t h
  rcases (effect_of_exec h).flags_cases with ⟨tr, rfl⟩ | ⟨hw, hf⟩ | ⟨hw, n, hf⟩
  · exact ⟨fun _ => rfl, fun _ => .inr ⟨tr, rfl⟩⟩
  · exact ⟨fun _ => hf, fun hw' => by simp [hw] at hw'⟩
  · exact ⟨fun hw' => by simp [hw] at hw', fun _ => .inl (hf ▸ flagsOf_cases n)⟩

end Sys2Proof.Machine
end

section
/-! PROOF. Reads and writes of the Word Store (spec 20_memory.md R24 to R26). -/

namespace Sys2Proof.Machine

/-- R24: an address that the store does not list reads 0, whether or not the store is canonical. -/
theorem Memory.get_eq_zero_of_unlisted {m : Memory} {a : Nat} (h : ∀ v, (a, v) ∉ m) :
    m.get a = 0 := by
  induction m with
  | nil => rfl
  | cons e m ih =>
    obtain ⟨k, w⟩ := e
    have hk : k ≠ a := fun hka => h w (hka ▸ List.mem_cons_self)
    rw [Memory.get_cons, if_neg hk]
    exact ih fun v hv => h v (List.mem_cons_of_mem _ hv)

/-- R26 over a list of writes: an address none of them names reads what it read before. -/
theorem State.memRead_foldl_memWrite_ne {a : Word} (bs : List (Word × Word))
    (h : ∀ e ∈ bs, e.1 ≠ a) (s : State) :
    (bs.foldl (fun s e => s.memWrite e.1 e.2) s).memRead a = s.memRead a := by
  induction bs generalizing s with
  | nil => rfl
  | cons e bs ih =>
    obtain ⟨he, hbs⟩ := List.forall_mem_cons.1 h
    rw [List.foldl_cons, ih hbs, State.memRead_memWrite_ne s e.2 he.symm]

/-- Settles O7: the two read rules of the Word Store, and a write is an update of `mem` alone. -/
theorem memoryWriteSetsOneWord : Obligations.MemoryWriteSetsOneWord := fun s a v h =>
  ⟨State.memRead_memWrite_self h a v, fun _ hb => State.memRead_memWrite_ne s v hb, rfl⟩

/-- Settles O8: after reset the Word Store is the image, and writes elsewhere leave the read alone. -/
theorem unsetAddressesReadZero : Obligations.UnsetAddressesReadZero := by
  intro p d image a hi
  have hreset : (State.resetWith p d image).memRead a = 0 := Memory.get_eq_zero_of_unlisted hi
  exact ⟨hreset, fun bs hbs => (State.memRead_foldl_memWrite_ne bs hbs _).trans hreset⟩

end Sys2Proof.Machine
end

section
/-! PROOF. How many words the decoder takes (spec 30_encoding.md R37, R38). -/

namespace Sys2Proof

/-- R39: formats RM and M take the next word as their address. -/
theorem takeAddress_eq_ok {mk : Word → Instr} {ws rest : List Word} {i : Instr} :
    takeAddress mk ws = .ok (i, rest) ↔ ∃ adr, ws = adr :: rest ∧ i = mk adr := by
  cases ws with
  | nil => simp [takeAddress]
  | cons a ws => simp [takeAddress, eq_comm, and_comm]

/-- R42: an SVC of type 1 or 2 takes the next two words as its addresses. -/
theorem takeTwoAddresses_eq_ok {mk : Word → Word → SvcCall} {r : BitVec 4} {ws rest : List Word}
    {i : Instr} :
    takeTwoAddresses mk r ws = .ok (i, rest) ↔
      ∃ dA cA, ws = dA :: cA :: rest ∧ i = .svc r (mk dA cA) := by
  match ws with
  | [] => simp [takeTwoAddresses]
  | [_] => simp [takeTwoAddresses]
  | a :: b :: ws => simp [takeTwoAddresses, eq_comm, and_comm]

/-- R37: the sub-type alone says whether an SVC takes two more words or none. -/
theorem decodeSvc_length {r xf : BitVec 4} {ws rest : List Word} {i : Instr}
    (h : decodeSvc r xf ws = .ok (i, rest)) :
    ws.length + 1 = rest.length + Form.svc.words xf := by
  have takesTwo {mk} (h : takeTwoAddresses mk r ws = .ok (i, rest)) :
      ws.length + 1 = rest.length + 3 := by
    obtain ⟨_, _, rfl, -⟩ := takeTwoAddresses_eq_ok.1 h
    rfl
  unfold decodeSvc at h
  split at h
  · next h1 => simpa [Form.words, h1] using takesTwo h
  · next h1 =>
    split at h
    · next h2 => simpa [Form.words, h2] using takesTwo h
    · next h2 =>
      cases h
      simp [Form.words, h1, h2]

/-- R37: the words taken, word 0 among them, are those of the form and the index field. -/
theorem decodeForm_length {f : Form} {r xf : BitVec 4} {ws rest : List Word} {i : Instr}
    (h : decodeForm f r xf ws = .ok (i, rest)) :
    ws.length + 1 = rest.length + f.words xf := by
  cases f with
  | svc => exact decodeSvc_length h
  | ldRR | suba | andRR | cpaRR | ret =>
    cases h
    rfl
  | ldRM | st | lad | adda | andRM | cpaRM | jmi | jze | jump | jpl =>
    obtain ⟨_, rfl, -⟩ := takeAddress_eq_ok.1 h
    rfl

/-- R46: a decode succeeds exactly when word 0 names a form and that form decodes the later words. -/
theorem decode_cons_eq_ok {m : OpcodeMap} {w : Word} {ws rest : List Word} {i : Instr} :
    decode m (w :: ws) = .ok (i, rest) ↔
      ∃ f, m.formOf (opField w) = some f ∧
        decodeForm f (rField w) (xfField w) ws = .ok (i, rest) := by
  cases hf : m.formOf (opField w) <;> simp [decode, hf]

/-- Settles O5: word 0 names the form (`decode_cons_eq_ok`), and the form and the index field give
the number of words (`decodeForm_length`). -/
theorem lengthIsToldByWordZero : Obligations.LengthIsToldByWordZero := by
  intro m w ws rest i h
  obtain ⟨f, hf, hd⟩ := decode_cons_eq_ok.1 h
  have hl : (w :: ws).length = rest.length + f.words (xfField w) := decodeForm_length hd
  exact ⟨f, hf, hl.trans (by cases f <;> rfl)⟩

end Sys2Proof
end

section
/-! PROOF. The fetch of RET and the halt (spec 40_sequencer.md R56, R59, R67; 44_syscall_halt.md R93). -/

namespace Sys2Proof

/-- R59: RET is recognised first, so its opcode names it under every map, distinct or not. -/
theorem OpcodeMap.formOf_ret (m : OpcodeMap) : m.formOf m.ret = some .ret :=
  List.find?_cons_of_pos (beq_self_eq_true m.ret)

/-- The decoder of a form gives an instruction of that form. -/
theorem form_of_decodeForm {f : Form} {r xf : BitVec 4} {ws rest : List Word} {i : Instr}
    (h : decodeForm f r xf ws = .ok (i, rest)) : i.form = f := by
  cases f with
  | ldRR | suba | andRR | cpaRR | ret =>
    cases h
    rfl
  | ldRM | st | lad | adda | andRM | cpaRM | jmi | jze | jump | jpl =>
    obtain ⟨_, -, rfl⟩ := takeAddress_eq_ok.1 h
    rfl
  | svc =>
    change decodeSvc r xf ws = _ at h
    unfold decodeSvc at h
    split_ifs at h
    · obtain ⟨_, _, -, rfl⟩ := takeTwoAddresses_eq_ok.1 h
      rfl
    · obtain ⟨_, _, -, rfl⟩ := takeTwoAddresses_eq_ok.1 h
      rfl
    · cases h
      rfl

/-- R46: word 0 of a decoded instruction holds the opcode of its form. -/
theorem opField_of_decode {m : OpcodeMap} {w : Word} {ws rest : List Word} {i : Instr}
    (h : decode m (w :: ws) = .ok (i, rest)) : opField w = m.opcode i.form := by
  obtain ⟨f, hf, hd⟩ := decode_cons_eq_ok.1 h
  rw [form_of_decodeForm hd, OpcodeMap.opcode_of_formOf hf]

end Sys2Proof

namespace Sys2Proof.Machine

theorem State.fetch_eq_ok {s : State} {i : Instr} :
    s.fetch = .ok i ↔ ∃ rest, decode s.params.opcodes s.fetchWords = .ok (i, rest) := by
  unfold State.fetch
  cases decode s.params.opcodes s.fetchWords <;> simp [Prod.ext_iff]

/-- R46: the word at `pc` holds the opcode of the instruction fetched. -/
theorem State.opField_of_fetch {s : State} {i : Instr} (h : s.fetch = .ok i) :
    opField (s.memRead s.pc) = s.params.opcodes.opcode i.form := by
  obtain ⟨_, hd⟩ := State.fetch_eq_ok.1 h
  exact opField_of_decode hd

/-- R59: the opcode of RET at `pc` is fetched as RET. -/
theorem State.fetch_ret {s : State} (h : opField (s.memRead s.pc) = s.params.opcodes.ret) :
    s.fetch = .ok (.ret (rField (s.memRead s.pc)) (xfField (s.memRead s.pc))) :=
  State.fetch_eq_ok.2 ⟨_, decode_cons_eq_ok.2 ⟨.ret, h ▸ OpcodeMap.formOf_ret _, rfl⟩⟩

theorem step_of_halted {s : State} (h : s.seq = .halted) : step s = .next s := by
  simp only [step, h]

/-- R67, R93: a step that fetches RET halts the unit and does nothing else. -/
theorem step_of_ret {s : State} (hr : s.seq = .ready)
    (h : opField (s.memRead s.pc) = s.params.opcodes.ret) : step s = .next (s.setSeq .halted) := by
  rw [step_of_ready hr, State.fetch_ret h]
  rfl

/-- A state that a step leaves is left by any number of steps. -/
theorem run_of_step_self {s : State} (h : step s = .next s) (k : Nat) : core.run k s = .next s := by
  induction k with
  | zero => rfl
  | succ k ih => rw [run_of_next h, ih]

/-- R93: of all effects only RET's leaves a unit that was not HALTED in HALTED. -/
theorem Effect.ret_of_halted {i : Instr} {s t : State} (h : Effect i s t) (hs : s.seq ≠ .halted)
    (ht : t.seq = .halted) : (∃ r xf, i = .ret r xf) ∧ t = s.setSeq .halted := by
  cases h with
  | halted r xf hi => exact ⟨⟨r, xf, hi⟩, rfl⟩
  | raised | waits => cases ht
  | emits | passes | stores | loadsAddress | results | compares | jumps | falls =>
    exact absurd ht hs

/-- R56, R87: in WAIT_INPUT the unit goes on waiting, or the SVC completes and the unit is READY. -/
theorem seq_of_resumeInput {ctx : PendingInput} {s t : State} (h : resumeInput ctx s = .next t) :
    t = s ∨ t.seq = .ready := by
  cases ha : s.answers with
  | nil =>
    simp only [resumeInput, ha] at h
    cases h
    exact .inl rfl
  | cons line rest =>
    simp only [resumeInput, ha] at h
    rcases deliverLine_cases ctx line { s with answers := rest } with ⟨codes, -, e⟩ | ⟨-, e⟩
    · cases e.symm.trans h
      exact .inr rfl
    · cases e.symm.trans h

/-- R67: a step that halts a unit has fetched RET. -/
theorem ret_of_step_halted {s t : State} (hs : s.seq ≠ .halted) (h : step s = .next t)
    (ht : t.seq = .halted) :
    s.seq = .ready ∧ opField (s.memRead s.pc) = s.params.opcodes.ret ∧ t = s.setSeq .halted := by
  have not_kept : t ≠ s := fun e => hs (e ▸ ht)
  cases hq : s.seq with
  | ready =>
    rcases effect_of_step hq h with ⟨i, hf, -, he⟩ | ⟨-, rfl⟩
    · obtain ⟨⟨r, xf, rfl⟩, rfl⟩ := he.ret_of_halted hs ht
      exact ⟨rfl, State.opField_of_fetch hf, rfl⟩
    · cases ht
  | waitInput ctx =>
    rw [step_of_waitInput hq] at h
    rcases seq_of_resumeInput h with e | e
    · exact absurd e not_kept
    · cases e.symm.trans ht
  | halted => exact absurd hq hs
  | idle | faulted =>
    simp only [step, hq] at h
    cases h
    exact absurd rfl not_kept

/-- Settles O44: `step_of_ret`, a halted unit is left by every step, and `ret_of_step_halted`. -/
theorem retAndOnlyRetHalts : Obligations.RetAndOnlyRetHalts :=
  ⟨fun _ hr hop => ⟨step_of_ret hr hop, run_of_step_self (step_of_halted rfl)⟩,
    fun _ _ hs h ht => ret_of_step_halted hs h ht⟩

end Sys2Proof.Machine
end

section
/-! PROOF. SVC of a sub-type other than 1 and 2 (spec 44_syscall_halt.md R85, R89). -/

namespace Sys2Proof

/-- R85, R89: `other` has an encoding exactly when its sub-type is neither 1 nor 2. -/
theorem SvcCall.wellFormed_other {t : BitVec 4} :
    (SvcCall.other t).wellFormed = true ↔ t ≠ 1#4 ∧ t ≠ 2#4 := by
  simp [SvcCall.wellFormed]

end Sys2Proof

namespace Sys2Proof.Machine

/-- R60: the advance is an update of `pc` alone, modulo 2^16. -/
theorem State.advance_eq (s : State) (n : Nat) :
    s.advance n = { s with pc := s.pc + BitVec.ofNat 16 n } :=
  congrArg (fun p => { s with pc := p }) (wrap16_uint_add s.pc n)

/-- R89: an SVC of another sub-type only moves `pc` past its one word. -/
theorem exec_svcOther (r t : BitVec 4) (s : State) :
    exec (.svc r (.other t)) s = .next { s with pc := s.pc + 1 } :=
  congrArg Host.Outcome.next (s.advance_eq 1)

/-- Settles O24: the encoding has the one word by definition, the sub-type is well-formed, and
`exec_svcOther` gives the next state. -/
theorem svcOtherIsOneWordNoOp : Obligations.SvcOtherIsOneWordNoOp := fun _ r t s h1 h2 =>
  ⟨rfl, SvcCall.wellFormed_other.2 ⟨h1, h2⟩, exec_svcOther r t s⟩

end Sys2Proof.Machine
end

section
/-! PROOF. The decoder and the encoder are inverse (spec 30_encoding.md R36, R37, R44, R46, R47). -/

namespace Sys2Proof

/-- R36: bits 7..4 of word 0, beside `Instr.xfBits`. -/
def Instr.rBits : Instr → BitVec 4
  | .ldMem r _ _ => r
  | .st r _ _ => r
  | .lad r _ _ => r
  | .ldReg r _ => r
  | .addaMem r _ _ => r
  | .subaReg r _ => r
  | .andMem r _ _ => r
  | .andReg r _ => r
  | .cpaMem r _ _ => r
  | .cpaReg r _ => r
  | .jmi r _ _ => r
  | .jze r _ _ => r
  | .jump r _ _ => r
  | .jpl r _ _ => r
  | .ret r _ => r
  | .svc r _ => r

/-- R42: the address words of an SVC. -/
def SvcCall.addressWords : SvcCall → List Word
  | .input dA cA => [dA, cA]
  | .output dA cA => [dA, cA]
  | .other _ => []

/-- R39, R42: the words of an instruction after word 0. -/
def Instr.addressWords : Instr → List Word
  | .ldMem _ _ adr => [adr]
  | .st _ _ adr => [adr]
  | .lad _ _ adr => [adr]
  | .ldReg _ _ => []
  | .addaMem _ _ adr => [adr]
  | .subaReg _ _ => []
  | .andMem _ _ adr => [adr]
  | .andReg _ _ => []
  | .cpaMem _ _ adr => [adr]
  | .cpaReg _ _ => []
  | .jmi _ _ adr => [adr]
  | .jze _ _ adr => [adr]
  | .jump _ _ adr => [adr]
  | .jpl _ _ adr => [adr]
  | .ret _ _ => []
  | .svc _ call => call.addressWords

theorem encodeSvc_eq (op : BitVec 8) (r : BitVec 4) (call : SvcCall) :
    encodeSvc op r call = packWord op r call.subtype :: call.addressWords := by
  cases call <;> rfl

/-- R36, R37: an instruction is encoded as its opcode and two fields, then its address words. -/
theorem encode_eq (m : OpcodeMap) (i : Instr) :
    encode m i = packWord (m.opcode i.form) i.rBits i.xfBits :: i.addressWords := by
  cases i with
  | svc r call => exact encodeSvc_eq m.svc r call
  | _ => rfl

/-- R37: no instruction has more than three words. -/
theorem encode_length_le (m : OpcodeMap) (i : Instr) : (encode m i).length ≤ 3 := by
  cases i with
  | svc r call => cases call <;> simp [encode, encodeSvc]
  | _ => simp [encode]

/-- R42, R85: an SVC is decoded from exactly its sub-type and its address words. -/
theorem decodeSvc_eq_ok {r xf : BitVec 4} {ws rest : List Word} {i : Instr} :
    decodeSvc r xf ws = .ok (i, rest) ↔
      ∃ call : SvcCall, i = .svc r call ∧ call.wellFormed = true ∧ call.subtype = xf ∧
        ws = call.addressWords ++ rest := by
  constructor
  · intro h
    unfold decodeSvc at h
    split_ifs at h with h1 h2
    · obtain ⟨dA, cA, rfl, rfl⟩ := takeTwoAddresses_eq_ok.1 h
      exact ⟨.input dA cA, rfl, rfl, h1.symm, rfl⟩
    · obtain ⟨dA, cA, rfl, rfl⟩ := takeTwoAddresses_eq_ok.1 h
      exact ⟨.output dA cA, rfl, rfl, h2.symm, rfl⟩
    · cases h
      exact ⟨.other xf, rfl, SvcCall.wellFormed_other.2 ⟨h1, h2⟩, rfl, rfl⟩
  · rintro ⟨call, rfl, hw, rfl, rfl⟩
    cases call with
    | input _ _ => rfl
    | output _ _ => rfl
    | other t =>
      obtain ⟨h1, h2⟩ := SvcCall.wellFormed_other.1 hw
      exact (if_neg h1).trans (if_neg h2)

/-- R37: the decoder of a form reads exactly the well-formed instructions of that form, from their
fields and their address words. -/
theorem decodeForm_eq_ok {f : Form} {r xf : BitVec 4} {ws rest : List Word} {i : Instr} :
    decodeForm f r xf ws = .ok (i, rest) ↔
      i.wellFormed = true ∧ i.form = f ∧ i.rBits = r ∧ i.xfBits = xf ∧
        ws = i.addressWords ++ rest := by
  constructor
  · intro h
    cases f with
    | ldRR | suba | andRR | cpaRR | ret =>
      cases h
      exact ⟨rfl, rfl, rfl, rfl, rfl⟩
    | ldRM | st | lad | adda | andRM | cpaRM | jmi | jze | jump | jpl =>
      obtain ⟨_, rfl, rfl⟩ := takeAddress_eq_ok.1 h
      exact ⟨rfl, rfl, rfl, rfl, rfl⟩
    | svc =>
      obtain ⟨call, rfl, hw, hx, rfl⟩ := decodeSvc_eq_ok.1 h
      exact ⟨hw, rfl, rfl, hx, rfl⟩
  · rintro ⟨hw, rfl, rfl, rfl, rfl⟩
    cases i with
    | svc r call => exact decodeSvc_eq_ok.2 ⟨call, rfl, hw, rfl, rfl⟩
    | _ => rfl

/-- Settles O2: word 0 of the encoding names the form (`decode_packWord`), and the form reads the
instruction back (`decodeForm_eq_ok`). -/
theorem decodeOfEncodeIsTheInstruction : Obligations.DecodeOfEncodeIsTheInstruction := by
  intro m i rest hm hi
  rw [encode_eq, List.cons_append, decode_packWord hm]
  exact decodeForm_eq_ok.2 ⟨hi, rfl, rfl, rfl, rfl⟩

/-- Settles O3: `decodeForm_eq_ok`, and word 0 is its three fields (`packWord_fields`). -/
theorem encodeOfDecodeIsTheWords : Obligations.EncodeOfDecodeIsTheWords := by
  intro m ws rest i h
  cases ws with
  | nil => cases h
  | cons w ws =>
    obtain ⟨f, hf, hd⟩ := decode_cons_eq_ok.1 h
    obtain ⟨hw, rfl, hr, hx, rfl⟩ := decodeForm_eq_ok.1 hd
    refine ⟨hw, ?_⟩
    rw [encode_eq, OpcodeMap.opcode_of_formOf hf, hr, hx, packWord_fields, List.cons_append]

theorem takeAddress_ne_undefinedOpcode (mk : Word → Instr) (ws : List Word) (op : BitVec 8) :
    takeAddress mk ws ≠ .error (.undefinedOpcode op) := by
  cases ws <;> simp [takeAddress]

theorem takeTwoAddresses_ne_undefinedOpcode (mk : Word → Word → SvcCall) (r : BitVec 4)
    (ws : List Word) (op : BitVec 8) : takeTwoAddresses mk r ws ≠ .error (.undefinedOpcode op) := by
  match ws with
  | [] => simp [takeTwoAddresses]
  | [_] => simp [takeTwoAddresses]
  | _ :: _ :: _ => simp [takeTwoAddresses]

/-- R47: once a form is found the opcode is assigned, so only address words can be missing. -/
theorem decodeForm_ne_undefinedOpcode (f : Form) (r xf : BitVec 4) (ws : List Word)
    (op : BitVec 8) : decodeForm f r xf ws ≠ .error (.undefinedOpcode op) := by
  cases f with
  | ldRR | suba | andRR | cpaRR | ret => simp [decodeForm]
  | ldRM | st | lad | adda | andRM | cpaRM | jmi | jze | jump | jpl =>
    exact takeAddress_ne_undefinedOpcode _ _ _
  | svc =>
    change decodeSvc r xf ws ≠ _
    unfold decodeSvc
    split_ifs
    · exact takeTwoAddresses_ne_undefinedOpcode _ _ _ _
    · exact takeTwoAddresses_ne_undefinedOpcode _ _ _ _
    · simp

/-- R47: the decoder rejects the opcode exactly when no form is found for it. -/
theorem decode_undefinedOpcode_iff {m : OpcodeMap} {w : Word} {ws : List Word} :
    decode m (w :: ws) = .error (.undefinedOpcode (opField w)) ↔ m.formOf (opField w) = none := by
  cases hf : m.formOf (opField w) with
  | none => simp [decode, hf]
  | some f => simp [decode, hf, decodeForm_ne_undefinedOpcode]

/-- Settles O4: no form is found for the opcode exactly when it is no form's. -/
theorem unassignedOpcodesAreUndefined : Obligations.UnassignedOpcodesAreUndefined :=
  fun _ _ _ => decode_undefinedOpcode_iff.trans OpcodeMap.formOf_eq_none

/-- Settles O1: the decoder run on each of the eight written-out lists of words. -/
theorem sampleWordsDecodeToTheirInstructions :
    Obligations.SampleWordsDecodeToTheirInstructions :=
  ⟨by decide, by decide, by decide, by decide, by decide, by decide, by decide, by decide⟩

end Sys2Proof
end

section
/-! PROOF. The fetch, and the step that runs what is fetched (spec 40_sequencer.md R56, R59;
60_exceptions.md R95, R97, R99). -/

namespace Sys2Proof.Machine

/-- R58: IDLE, HALTED and FAULTED are left by a step as they are. -/
theorem step_of_stopped {s : State} (h : s.seq = .idle ∨ s.seq = .halted ∨ s.seq = .faulted) :
    step s = .next s := by
  rcases h with h | h | h <;> simp only [step, h]

theorem step_of_fetch {s : State} {i : Instr} (hr : s.seq = .ready) (h : s.fetch = .ok i) :
    step s = exec i s := by
  rw [step_of_ready hr, h]

/-- R47, R95: a step whose fetch finds no form raises UndefinedOpcode. -/
theorem step_of_fetch_error {s : State} {e : DecodeError} (hr : s.seq = .ready)
    (h : s.fetch = .error e) :
    step s = .next (s.raise (.undefinedOpcode (opField (s.memRead s.pc)))) := by
  rw [step_of_ready hr, h]
  rfl

/-- R87, R90: in WAIT_INPUT the first answer of the queue is delivered. -/
theorem resumeInput_cons {ctx : PendingInput} {s : State} {line : Line} {rest : List Line}
    (h : s.answers = line :: rest) :
    resumeInput ctx s = deliverLine ctx line (s.queue rest) := by
  simp only [resumeInput, h]

/-- R90: without an answer nothing changes. -/
theorem resumeInput_nil {ctx : PendingInput} {s : State} (h : s.answers = []) :
    resumeInput ctx s = .next s := by
  simp only [resumeInput, h]

/-- R59: the words of a well-formed instruction at `pc` are fetched as that instruction. -/
theorem State.fetch_of_encode {s : State} {i : Instr} {rest : List Word}
    (hm : s.params.opcodes.wellFormed = true) (hi : i.wellFormed = true)
    (h : s.fetchWords = encode s.params.opcodes i ++ rest) : s.fetch = .ok i :=
  State.fetch_eq_ok.2 ⟨rest, h ▸ decodeOfEncodeIsTheInstruction _ i rest hm hi⟩

/-- R59: what is fetched is well-formed, and its words are those at `pc`. -/
theorem State.encode_of_fetch {s : State} {i : Instr} (h : s.fetch = .ok i) :
    i.wellFormed = true ∧ ∃ rest, s.fetchWords = encode s.params.opcodes i ++ rest := by
  obtain ⟨rest, hd⟩ := State.fetch_eq_ok.1 h
  obtain ⟨hi, he⟩ := encodeOfDecodeIsTheWords _ _ _ _ hd
  exact ⟨hi, rest, he.symm⟩

/-- R18, R42: the address words of an SVC type 1 stand after `pc`. -/
theorem State.addresses_of_fetch_input {s : State} {r : BitVec 4} {dA cA : Word}
    (h : s.fetch = .ok (.svc r (.input dA cA))) :
    dA = s.memRead (s.pc + 1) ∧ cA = s.memRead (s.pc + 2) := by
  obtain ⟨-, rest, he⟩ := State.encode_of_fetch h
  injection he with _ he
  injection he with hd he
  injection he with hc
  exact ⟨hd.symm, hc.symm⟩

/-- Settles O30: the instruction is fetched (`State.fetch_of_encode`), and the step runs it. -/
theorem stepRunsTheDecodedInstruction : Obligations.StepRunsTheDecodedInstruction :=
  fun _ _ _ hr hm hi h => step_of_fetch hr (State.fetch_of_encode hm hi h)

/-- Settles O31: no form is found for the opcode, so the fetch fails. -/
theorem undefinedOpcodeFaultsAtTheFetch : Obligations.UndefinedOpcodeFaultsAtTheFetch := by
  intro s hr h
  have hd := (unassignedOpcodesAreUndefined s.params.opcodes (s.memRead s.pc)
    [s.memRead (s.pc + 1), s.memRead (s.pc + 2)]).2 h
  have hf : s.fetch = .error (.undefinedOpcode (opField (s.memRead s.pc))) := by
    simp only [State.fetch, State.fetchWords, hd]
  exact step_of_fetch_error hr hf

/-- Settles O32: `step_of_stopped`, and the control port's `step()` does not begin a step there. -/
theorem stoppedUnitsDoNotStep : Obligations.StoppedUnitsDoNotStep := by
  intro s h
  refine ⟨step_of_stopped h, ?_⟩
  rcases h with h | h | h <;> simp only [perform, performStep, h]

/-- Settles O34: each part is the definition of `State.raise`, `Trap.cause` or `Trap.info`. -/
theorem raiseRecordsAndStopsPrecisely : Obligations.RaiseRecordsAndStopsPrecisely :=
  ⟨fun _ _ => rfl, fun _ => ⟨rfl, rfl⟩, fun _ => ⟨rfl, rfl⟩, fun _ => ⟨rfl, rfl⟩⟩

/-! ### Faulted steps -/

theorem Trap.cause_ne_none (tr : Trap) : tr.cause ≠ .none := by
  cases tr <;> simp [Trap.cause]

/-- R99: of all effects only a raised fault leaves a unit that was not FAULTED in FAULTED. -/
theorem Effect.raise_of_faulted {i : Instr} {s t : State} (h : Effect i s t)
    (hs : s.seq ≠ .faulted) (ht : t.seq = .faulted) : ∃ tr, t = s.raise tr := by
  cases h with
  | raised tr _ => exact ⟨tr, rfl⟩
  | halted | waits => cases ht
  | emits | passes | stores | loadsAddress | results | compares | jumps | falls =>
    exact absurd ht hs

/-- R95, R99: a step from READY that ends FAULTED has raised a fault and done nothing else. -/
theorem raise_of_step_faulted {s t : State} (hr : s.seq = .ready) (h : step s = .next t)
    (ht : t.seq = .faulted) : ∃ tr, t = s.raise tr := by
  rcases effect_of_step hr h with ⟨_, -, -, he⟩ | ⟨-, e⟩
  · exact he.raise_of_faulted (by simp [hr]) ht
  · exact ⟨_, e⟩

/-- Settles O36: `raise_of_step_faulted`, read off field by field. -/
theorem faultedStepsArePrecise : Obligations.FaultedStepsArePrecise := by
  intro s t hr h ht
  obtain ⟨tr, rfl⟩ := raise_of_step_faulted hr h ht
  exact ⟨rfl, tr.cause_ne_none, rfl, rfl⟩

end Sys2Proof.Machine
end

section
/-! PROOF. The invariant: at reset, over a step, over a command of the host (spec 10_state.md R17 to
R20, R22 to R24; 40_sequencer.md R55, R56; 60_exceptions.md R99). -/

namespace Sys2Proof.Machine

/-- R22: the unit is IDLE with no cause right after reset. -/
theorem inv_resetWith {p : Params} (d : ResetDraw) {image : Memory}
    (hp : p.opcodes.wellFormed = true) (hi : image.wf = true) : Inv (State.resetWith p d image) :=
  ⟨hi, hp, by simp [State.resetWith], rfl⟩

/-- Settles O50: `inv_resetWith`, of which `State.reset` is the case of the default map. -/
theorem invariantHoldsAtReset : Obligations.InvariantHoldsAtReset :=
  ⟨fun _ d _ => inv_resetWith d, inv_resetWith zeroDraw (by decide) rfl⟩

/-- R55, R99: a unit that is not FAULTED has no cause recorded. -/
theorem Inv.cause_eq_none {s : State} (h : Inv s) (hs : s.seq ≠ .faulted) :
    s.fault.cause = .none :=
  not_not.1 fun hc => hs (h.cause.2 hc)

/-- R99: a raised fault is recorded with its cause. -/
theorem Inv.raise {s : State} (h : Inv s) (tr : Trap) : Inv (s.raise tr) :=
  ⟨h.memory, h.opcodes, iff_of_true rfl tr.cause_ne_none, rfl⟩

/-- A change that raises no fault keeps the invariant when it keeps the canonical form and, in
WAIT_INPUT, holds the context of `pc`. -/
theorem Inv.of_unfaulted {s t : State} (h : Inv s) (hs : s.seq ≠ .faulted) (ht : t.seq ≠ .faulted)
    (hp : t.params = s.params) (hf : t.fault = s.fault) (hm : t.mem.wf = true)
    (hc : t.seq.contextAt t = true) : Inv t :=
  ⟨hm, hp ▸ h.opcodes, iff_of_false ht (by simp [hf, h.cause_eq_none hs]), hc⟩

/-- R58: READY needs no context, nor do the states where the unit is stopped. -/
theorem Seq.contextAt_of_pending {q : Seq} (h : q.pending = none) (s : State) :
    q.contextAt s = true := by
  cases q with
  | waitInput ctx => cases h
  | _ => rfl

/-- R59: every effect of the instruction that stands at `pc` keeps the invariant. -/
theorem Inv.of_effect {i : Instr} {s t : State} (h : Inv s) (hr : s.seq = .ready)
    (hf : s.fetch = .ok i) (he : Effect i s t) : Inv t := by
  have hs : s.seq ≠ .faulted := by simp [hr]
  have hc (u : State) (hq : u.seq = s.seq) : u.seq.contextAt u = true :=
    Seq.contextAt_of_pending (by rw [hq, hr]; rfl) u
  cases he with
  | raised tr _ => exact h.raise tr
  | halted => exact h.of_unfaulted hs (by simp) rfl rfl h.memory rfl
  | waits r dA cA hi =>
    subst hi
    obtain ⟨rfl, rfl⟩ := State.addresses_of_fetch_input hf
    exact h.of_unfaulted hs (by simp) rfl rfl h.memory (by simp [Seq.contextAt])
  | stores => exact h.of_unfaulted hs hs rfl rfl (Memory.wf_set h.memory _ _) (hc _ rfl)
  | emits | passes | loadsAddress | results | compares | jumps | falls =>
    exact h.of_unfaulted hs hs rfl rfl h.memory (hc _ rfl)

/-- R87: the completion of an SVC type 1 keeps the invariant. -/
theorem Inv.completeInput {s : State} (h : Inv s) {ctx : PendingInput} (hq : s.seq = .waitInput ctx)
    (codes : List Word) : Inv (s.completeInput ctx codes) := by
  rw [State.completeInput_eq]
  exact h.of_unfaulted (by simp [hq]) (by simp) rfl rfl
    (Memory.wf_set (State.writeCodes_wf h.memory ctx.dA codes) _ _) rfl

/-- R87, R92: so does the delivery of a line. -/
theorem Inv.of_deliverLine {s t : State} (h : Inv s) {ctx : PendingInput} (hq : s.seq = .waitInput ctx)
    {line : Line} (hd : deliverLine ctx line s = .next t) : Inv t := by
  rcases deliverLine_cases ctx line s with ⟨codes, -, e⟩ | ⟨-, e⟩
  · cases e.symm.trans hd
    exact h.completeInput hq codes
  · cases e.symm.trans hd

/-- The invariant says nothing of the answers waiting. -/
theorem Inv.queue {s : State} (h : Inv s) (l : List Line) : Inv (s.queue l) :=
  ⟨h.memory, h.opcodes, h.cause, h.context⟩

/-- Settles O51, by the sequencer state: in READY `Inv.of_effect` or a raised fault, in WAIT_INPUT
`Inv.of_deliverLine`, and everywhere else the step changes nothing. -/
theorem stepKeepsTheInvariant : Obligations.StepKeepsTheInvariant := by
  intro s t hi h
  have stopped (hq : s.seq = .idle ∨ s.seq = .halted ∨ s.seq = .faulted) : Inv t := by
    cases (step_of_stopped hq).symm.trans h
    exact hi
  cases hq : s.seq with
  | idle => exact stopped (.inl hq)
  | halted => exact stopped (.inr (.inl hq))
  | faulted => exact stopped (.inr (.inr hq))
  | ready =>
    rcases effect_of_step hq h with ⟨i, hf, -, he⟩ | ⟨-, rfl⟩
    · exact hi.of_effect hq hf he
    · exact hi.raise _
  | waitInput ctx =>
    rw [step_of_waitInput hq] at h
    cases ha : s.answers with
    | nil =>
      rw [resumeInput_nil ha] at h
      cases h
      exact hi
    | cons line rest =>
      rw [resumeInput_cons ha] at h
      exact (hi.queue rest).of_deliverLine hq h

/-! ### The commands of the host -/

theorem guarded_cases {a : Bool} {s t u : State} {r q : Reply}
    (h : guarded a s t r = .next (u, q)) : a = true ∧ u = t ∨ u = s := by
  cases a with
  | true =>
    cases h
    exact .inl ⟨rfl, rfl⟩
  | false =>
    cases h
    exact .inr rfl

theorem withReply_eq_next {o : Host.Outcome State Fault Refusal} {k : State → Reply} {t : State}
    {q : Reply} : withReply o k = .next (t, q) ↔ o = .next t ∧ q = k t := by
  cases o with
  | next u =>
    simp only [withReply, Host.Outcome.next.injEq, Prod.mk.injEq]
    exact and_congr_right fun e => e ▸ eq_comm
  | fault | refused => simp [withReply]

/-- R56: `step()` is a step of a READY unit, and changes nothing elsewhere. -/
theorem performStep_cases {s t : State} {q : Reply} (h : performStep s = .next (t, q)) :
    step s = .next t ∨ t = s := by
  cases hq : s.seq with
  | ready =>
    simp only [performStep, hq] at h
    exact .inl (withReply_eq_next.1 h).1
  | waitInput | idle | halted | faulted =>
    simp only [performStep, hq] at h
    cases h
    exact .inr rfl

/-- R87, R90: an answer is delivered to a waiting SVC, and changes nothing elsewhere. -/
theorem performAnswer_cases {line : Line} {s t : State} {q : Reply}
    (h : performAnswer line s = .next (t, q)) :
    (∃ ctx, s.seq = .waitInput ctx ∧ deliverLine ctx line s = .next t) ∨ t = s := by
  cases hq : s.seq with
  | waitInput ctx =>
    simp only [performAnswer, hq] at h
    exact .inl ⟨ctx, rfl, (withReply_eq_next.1 h).1⟩
  | ready | idle | halted | faulted =>
    simp only [performAnswer, hq] at h
    cases h
    exact .inr rfl

/-- R20: the driver writes where no SVC is pending. -/
theorem Seq.pending_of_writable {q : Seq} (h : q.writable = true) : q.pending = none := by
  cases q with
  | waitInput => cases h
  | _ => rfl

/-- R20, D23: a write of the driver keeps the invariant when it leaves the parameters, the sequencer
and the fault record, and keeps the canonical form. -/
theorem Inv.of_guarded {s t u : State} {r q : Reply} (h : Inv s)
    (hg : guarded s.seq.writable s t r = .next (u, q)) (hp : t.params = s.params)
    (hq : t.seq = s.seq) (hf : t.fault = s.fault) (hm : t.mem.wf = true) : Inv u := by
  rcases guarded_cases hg with ⟨hw, rfl⟩ | rfl
  · refine ⟨hm, hp ▸ h.opcodes, hq ▸ hf ▸ h.cause, ?_⟩
    exact Seq.contextAt_of_pending (hq ▸ Seq.pending_of_writable hw) _
  · exact h

/-- R55: `start(a)` makes the unit READY with no cause. -/
theorem Inv.start {s : State} (h : Inv s) (a : Word) : Inv (s.start a) :=
  ⟨h.memory, h.opcodes, by simp, rfl⟩

/-- Settles O52, by the command. -/
theorem hostCommandsKeepTheInvariant : Obligations.HostCommandsKeepTheInvariant := by
  intro c s t q hi h
  cases c with
  | start a =>
    rcases guarded_cases h with ⟨-, rfl⟩ | rfl
    · exact hi.start a
    · exact hi
  | step =>
    rcases performStep_cases h with hs | rfl
    · exact stepKeepsTheInvariant s t hi hs
    · exact hi
  | readState | readWord =>
    rcases guarded_cases h with ⟨-, rfl⟩ | rfl
    · exact hi
    · exact hi
  | writeReg | writePc | writeFlags => exact hi.of_guarded h rfl rfl rfl hi.memory
  | writeWord a v => exact hi.of_guarded h rfl rfl rfl (Memory.wf_set hi.memory a v)
  | answer line =>
    rcases performAnswer_cases h with ⟨ctx, hq, hd⟩ | rfl
    · exact hi.of_deliverLine hq hd
    · exact hi

end Sys2Proof.Machine
end

section
/-! PROOF. Lines and their codes, and what SVC type 1 and 2 do with them (spec 44_syscall_halt.md R85
to R92). -/

namespace Sys2Proof.Machine

/-! ### Addresses that count on from a base -/

/-- The next base and offset `k` is the base and offset `k + 1`. -/
theorem add_one_add_ofNat (a : Word) (k : Nat) :
    a + 1 + BitVec.ofNat 16 k = a + BitVec.ofNat 16 (k + 1) := by
  rw [BitVec.ofNat_add, BitVec.add_assoc, BitVec.add_comm 1]
  rfl

/-- R23: two different offsets below 2^16 name two different addresses. -/
theorem add_ofNat_ne_self (a : Word) {k : Nat} (h0 : 0 < k) (hk : k < 65536) :
    a + BitVec.ofNat 16 k ≠ a := by
  intro h
  have := congrArg BitVec.toNat h
  simp only [BitVec.toNat_add, BitVec.toNat_ofNat] at this
  omega

/-! ### Codes written and read at consecutive addresses -/

/-- R87: an address that no code goes to reads as before. -/
theorem State.memRead_writeCodes_ne {b : Word} (cs : List Word) (s : State) (a : Word)
    (h : ∀ k < cs.length, b ≠ a + BitVec.ofNat 16 k) :
    (s.writeCodes a cs).memRead b = s.memRead b := by
  induction cs generalizing s a with
  | nil => rfl
  | cons c cs ih =>
    have hb : b ≠ a := by simpa using h 0 (Nat.zero_lt_succ _)
    have hcs : ∀ k < cs.length, b ≠ a + 1 + BitVec.ofNat 16 k := fun k hk =>
      add_one_add_ofNat a k ▸ h (k + 1) (Nat.succ_lt_succ hk)
    rw [State.writeCodes, ih _ _ hcs, State.memRead_memWrite_ne s c hb]

/-- R87: code `k` stands at offset `k`, when the codes do not lap themselves. -/
theorem State.memRead_writeCodes {cs : List Word} {s : State} (hm : s.mem.wf = true) (a : Word)
    (hl : cs.length ≤ 65536) {k : Nat} (hk : k < cs.length) :
    (s.writeCodes a cs).memRead (a + BitVec.ofNat 16 k) = cs[k] := by
  induction cs generalizing s a k with
  | nil => cases hk
  | cons c cs ih =>
    rw [List.length_cons] at hl
    cases k with
    | zero =>
      have hne : ∀ j < cs.length, a ≠ a + 1 + BitVec.ofNat 16 j := fun j hj =>
        add_one_add_ofNat a j ▸ (add_ofNat_ne_self a j.succ_pos (by omega)).symm
      rw [BitVec.add_zero, State.writeCodes, State.memRead_writeCodes_ne cs _ _ hne,
        State.memRead_memWrite_self hm, List.getElem_cons_zero]
    | succ k =>
      rw [← add_one_add_ofNat]
      exact ih (Memory.wf_set hm a c) (a + 1) (by omega) (Nat.lt_of_succ_lt_succ hk)

theorem State.writeCodes_params (s : State) (a : Word) (cs : List Word) :
    (s.writeCodes a cs).params = s.params := by
  rw [State.writeCodes_eq]

theorem State.readCodes_length (s : State) (a : Word) (n : Nat) : (s.readCodes a n).length = n := by
  induction n generalizing a with
  | zero => rfl
  | succ n ih => exact congrArg (· + 1) (ih (a + 1))

/-- R88: the words read are those at the offsets below the length, in order. -/
theorem State.readCodes_eq_map (s : State) (a : Word) (n : Nat) :
    s.readCodes a n = (List.range n).map fun k => s.memRead (a + BitVec.ofNat 16 k) := by
  induction n generalizing a with
  | zero => rfl
  | succ n ih =>
    rw [State.readCodes, ih, List.range_succ_eq_map, List.map_cons, List.map_map, BitVec.add_zero]
    simp only [add_one_add_ofNat]
    rfl

/-- A read of `n + m` words is a read of `n` and then of `m` more. -/
theorem State.readCodes_add (s : State) (a : Word) (n m : Nat) :
    s.readCodes a (n + m) = s.readCodes a n ++ s.readCodes (a + BitVec.ofNat 16 n) m := by
  induction n generalizing a with
  | zero => simp [State.readCodes]
  | succ n ih =>
    rw [Nat.succ_add, State.readCodes, State.readCodes, ih, add_one_add_ofNat, List.cons_append]

/-- Codes written are read back. -/
theorem State.readCodes_writeCodes {s : State} (hm : s.mem.wf = true) (a : Word) {cs : List Word}
    (hl : cs.length ≤ 65536) : (s.writeCodes a cs).readCodes a cs.length = cs := by
  refine List.ext_getElem (State.readCodes_length _ _ _) fun k _ hk => ?_
  simp only [State.readCodes_eq_map, List.getElem_map, List.getElem_range, State.memRead_writeCodes hm a hl hk]

/-! ### The codes of a line -/

theorem encodeChars_cons_eq_some {p : Params} {c : HostChar} {line : Line} {codes : List Word} :
    encodeChars p (c :: line) = some codes ↔
      ∃ w ws, codes = w :: ws ∧ encodeChar p c = some w ∧ encodeChars p line = some ws := by
  cases hc : encodeChar p c <;> cases hl : encodeChars p line <;> simp [encodeChars, hc, hl, eq_comm]

/-- R87: a line has codes when every character has, and they are the characters' in order. -/
theorem encodeChars_eq_some {p : Params} {line : Line} {codes : List Word} :
    encodeChars p line = some codes ↔ line.map (encodeChar p) = codes.map some := by
  induction line generalizing codes with
  | nil => cases codes <;> simp [encodeChars]
  | cons c line ih =>
    rw [encodeChars_cons_eq_some, List.map_cons]
    constructor
    · rintro ⟨w, ws, rfl, hw, hws⟩
      rw [hw, ih.1 hws, List.map_cons]
    · intro h
      cases codes with
      | nil => cases h
      | cons w ws =>
        obtain ⟨hw, hws⟩ := List.cons.inj h
        exact ⟨w, ws, rfl, hw, ih.2 hws⟩

/-- R92: the host's duty. -/
theorem encodeLine_eq_some {p : Params} {line : Line} {codes : List Word} :
    encodeLine p line = some codes ↔
      line.length ≤ 65535 ∧ line.map (encodeChar p) = codes.map some := by
  rw [encodeLine, ← encodeChars_eq_some]
  split_ifs with h <;> simp [h]

theorem length_le_of_encodeLine {p : Params} {line : Line} {codes : List Word}
    (h : encodeLine p line = some codes) : codes.length ≤ 65535 := by
  obtain ⟨hl, hm⟩ := encodeLine_eq_some.1 h
  have hlen := congrArg List.length hm
  simp only [List.length_map] at hlen
  exact hlen ▸ hl

/-- Settles O28: `encodeLine_eq_some`, and an empty table of exceptions leaves the code point. -/
theorem encodedLinesAreTheCodesInOrder : Obligations.EncodedLinesAreTheCodesInOrder :=
  ⟨fun _ _ _ => encodeLine_eq_some, fun _ _ h => by simp [encodeChar, h, tableEntry]⟩

/-! ### SVC type 1 -/

theorem wrap16_natCast (n : Nat) : wrap16 n = BitVec.ofNat 16 n := by
  rw [wrap16, BitVec.ofInt_natCast]

/-- R87, R92: a line with codes completes the SVC that waits for it. -/
theorem deliverLine_of_codes {ctx : PendingInput} {line : Line} {s : State} {codes : List Word}
    (h : encodeLine s.params line = some codes) :
    deliverLine ctx line s = .next (s.completeInput ctx codes) := by
  simp only [deliverLine, h]

theorem deliverLine_of_none {ctx : PendingInput} {line : Line} {s : State}
    (h : encodeLine s.params line = none) : deliverLine ctx line s = .fault .hostBrokeLineDuty := by
  simp only [deliverLine, h]

/-- Settles O25: the encoding and the next state are the definitions. -/
theorem svcInputBeginsToWait : Obligations.SvcInputBeginsToWait :=
  ⟨rfl, fun _ _ _ _ _ => ⟨rfl, rfl⟩⟩

/-- Settles O26: the answer taken, or none. -/
theorem svcInputWaitsWithoutAnAnswer : Obligations.SvcInputWaitsWithoutAnAnswer := by
  intro s ctx hq
  rw [step_of_waitInput hq]
  refine ⟨resumeInput_nil, fun line rest ha he => ?_⟩
  rw [resumeInput_cons ha]
  exact deliverLine_of_none he

/-- Settles O27: the completion writes the codes (`State.memRead_writeCodes`) and then the count. -/
theorem svcInputWritesTheLineThenTheCount : Obligations.SvcInputWritesTheLineThenTheCount := by
  intro s ctx line rest codes hq hm ha he
  have hwf : (s.queue rest).mem.wf = true := hm
  have hl := length_le_of_encodeLine he
  have hstep : step s = .next ((s.queue rest).completeInput ctx codes) := by
    rw [step_of_waitInput hq, resumeInput_cons ha]
    exact deliverLine_of_codes he
  rw [State.completeInput_eq] at hstep
  refine ⟨_, hstep, rfl, wrap16_uint_add s.pc 3, rfl, rfl, rfl, rfl, rfl, rfl, ?_,
    fun k hk hne => ?_, fun b hb hne => ?_⟩
  · rw [← wrap16_natCast]
    exact State.memRead_memWrite_self (State.writeCodes_wf hwf ctx.dA codes) ctx.cA _
  · exact (State.memRead_memWrite_ne _ _ hne).trans
      (State.memRead_writeCodes hwf ctx.dA (by omega) hk)
  · exact (State.memRead_memWrite_ne _ _ hb).trans
      (State.memRead_writeCodes_ne codes (s.queue rest) ctx.dA hne)

/-- Settles O57: a waiting SVC is completed by a line with codes and its step returns. -/
theorem answerCompletesTheWaitingStep : Obligations.AnswerCompletesTheWaitingStep := by
  intro s line
  refine ⟨fun ctx codes hq he => ⟨?_, rfl⟩, fun hne => ?_⟩
  · simp only [perform, performAnswer, hq]
    exact withReply_eq_next.2 ⟨deliverLine_of_codes he, rfl⟩
  · cases hq : s.seq with
    | waitInput ctx => exact absurd hq (hne ctx)
    | ready | idle | halted | faulted => simp only [perform, performAnswer, hq]

/-! ### SVC type 2 -/

/-- Settles O29: the words read (`State.readCodes_eq_map`) decoded one by one. -/
theorem svcOutputEmitsTheWholeText : Obligations.SvcOutputEmitsTheWholeText := by
  intro m r dA cA s
  refine ⟨rfl, ?_⟩
  change retire 3 (s.logPort (.emit (outputText dA cA s))) = _
  rw [retire, State.advance_eq, outputText, State.readCodes_eq_map, List.map_map]
  rfl

/-! ### Words placed by the host -/

/-- R112: words placed at `pc`, at most three, are the first that the next fetch reads. -/
theorem State.fetchWords_placeAndStart {s : State} (hm : s.mem.wf = true) {ws : List Word}
    (hl : ws.length ≤ 3) : ∃ rest, (s.placeAndStart ws).fetchWords = ws ++ rest := by
  have hread : (s.placeAndStart ws).fetchWords =
      (s.writeCodes s.pc ws).readCodes s.pc (ws.length + (3 - ws.length)) := by
    rw [Nat.add_sub_cancel' hl]
    simp only [State.readCodes, BitVec.add_assoc]
    rfl
  rw [hread, State.readCodes_add, State.readCodes_writeCodes hm _ (by omega)]
  exact ⟨_, rfl⟩

/-- Settles O33: the words placed are fetched back as the instruction, and the unit is READY. -/
theorem placedInstructionRunsNext : Obligations.PlacedInstructionRunsNext := by
  intro s i hm hp hi
  have hparams : (s.placeAndStart (encode s.params.opcodes i)).params = s.params :=
    State.writeCodes_params s s.pc _
  obtain ⟨rest, hw⟩ := State.fetchWords_placeAndStart hm (encode_length_le s.params.opcodes i)
  refine step_of_fetch rfl (State.fetch_of_encode (by rw [hparams]; exact hp) hi (rest := rest) ?_)
  rw [hparams, hw]

end Sys2Proof.Machine
end

section
/-! PROOF. The operands: the effective address and the checks before a handler writes (spec
40_sequencer.md R61 to R65; 60_exceptions.md R96, R100). -/

namespace Sys2Proof.Machine

/-! ### The effective address -/

theorem fitS_of_fits {strict : Bool} {n : Int} (h : strict = true → -32768 ≤ n ∧ n ≤ 32767) :
    fitS strict n = .ok (wrap16 n) :=
  if_neg fun hn => hn.2 (h hn.1)

theorem fitS_of_not_fits {strict : Bool} {n : Int} (h : ¬(strict = true → -32768 ≤ n ∧ n ≤ 32767)) :
    fitS strict n = .error (.rangeViolation n) :=
  if_pos (Classical.not_imp.1 h)

theorem fitA_of_fits {strict : Bool} {n : Int} (h : strict = true → 0 ≤ n ∧ n ≤ 65535) :
    fitA strict n = .ok (wrap16 n) :=
  if_neg fun hn => hn.2 (h hn.1)

theorem fitA_of_not_fits {strict : Bool} {n : Int} (h : ¬(strict = true → 0 ≤ n ∧ n ≤ 65535)) :
    fitA strict n = .error (.rangeViolation n) :=
  if_pos (Classical.not_imp.1 h)

theorem exactAddress_index {xf : BitVec 4} (hx : xf.toNat < 8) (h0 : xf ≠ 0#4) (adr : Word)
    (s : State) : exactAddress xf adr s = adr.toNat + s.gr[xf.toNat].toInt :=
  (dif_pos hx).trans (if_neg h0)

/-- R63: with an index field 0..7 the effective address is the exact address, fitted. -/
theorem effectiveAddress_eq_fitA {xf : BitVec 4} (hx : xf.toNat < 8) (adr : Word) (s : State) :
    effectiveAddress xf adr s = fitA s.params.strictRange (exactAddress xf adr s) := by
  by_cases h0 : xf = 0#4
  · subst h0
    rfl
  · rw [exactAddress_index hx h0, effectiveAddress, if_neg h0, checkReg_of_lt hx]
    rfl

/-- R62, R63: an index field 8..15 raises InvalidRegister. -/
theorem effectiveAddress_of_ge {xf : BitVec 4} (hx : 8 ≤ xf.toNat) (adr : Word) (s : State) :
    effectiveAddress xf adr s = .error (.invalidRegister xf) := by
  have h0 : xf ≠ 0#4 := fun h => by simp [h] at hx
  rw [effectiveAddress, if_neg h0, checkReg_of_ge hx]

theorem effectiveAddress_of_fits {xf : BitVec 4} {adr : Word} {s : State} (hx : xf.toNat < 8)
    (h : addressFits xf adr s) : effectiveAddress xf adr s = .ok (operandAddress xf adr s) :=
  (effectiveAddress_eq_fitA hx adr s).trans (fitA_of_fits h)

theorem effectiveAddress_of_not_fits {xf : BitVec 4} {adr : Word} {s : State} (hx : xf.toNat < 8)
    (h : ¬addressFits xf adr s) :
    effectiveAddress xf adr s = .error (.rangeViolation (exactAddress xf adr s)) :=
  (effectiveAddress_eq_fitA hx adr s).trans (fitA_of_not_fits h)

/-- R5, R65: the wrapped sum of an address and a signed index is the 16-bit sum. -/
theorem wrap16_toNat_add_toInt (a v : Word) : wrap16 (a.toNat + v.toInt) = a + v := by
  rw [wrap16, BitVec.ofInt_add, BitVec.ofInt_toInt]
  exact congrArg (· + v) (wrap16_uint a)

/-- Settles O6, clause by clause: `effectiveAddress_of_ge`, `_of_fits`, `_of_not_fits`, and the 16-bit
sum is `wrap16_toNat_add_toInt`. -/
theorem effectiveAddressIsBasePlusIndex : Obligations.EffectiveAddressIsBasePlusIndex := by
  intro xf adr s
  refine ⟨fun hx => effectiveAddress_of_ge hx adr s, effectiveAddress_of_fits,
    effectiveAddress_of_not_fits, ?_, fun hx h0 => ?_⟩
  · rintro rfl
    exact wrap16_uint adr
  · rw [exactAddress_index hx h0]
    exact ⟨rfl, wrap16_toNat_add_toInt adr _⟩

/-! ### The operands of each format -/

section
variable {r xf : BitVec 4} {adr : Word} {s : State}

/-! Format RR -/

section
variable {k : Fin 8 → Fin 8 → Host.Outcome State Fault Refusal}

theorem withRegisters_ok (hr : r.toNat < 8) (hx : xf.toNat < 8) :
    withRegisters r xf s k = k ⟨r.toNat, hr⟩ ⟨xf.toNat, hx⟩ := by
  simp [withRegisters, checkReg_of_lt hr, checkReg_of_lt hx]

theorem withRegisters_bad_r (hr : 8 ≤ r.toNat) :
    withRegisters r xf s k = .next (s.raise (.invalidRegister r)) := by
  simp [withRegisters, checkReg_of_ge hr]

theorem withRegisters_bad_xf (hr : r.toNat < 8) (hx : 8 ≤ xf.toNat) :
    withRegisters r xf s k = .next (s.raise (.invalidRegister xf)) := by
  simp [withRegisters, checkReg_of_lt hr, checkReg_of_ge hx]

end

/-! Format RM -/

section
variable {k : Fin 8 → Word → Host.Outcome State Fault Refusal}

theorem withRegisterAddress_ok (hr : r.toNat < 8) (hx : xf.toNat < 8) (hf : addressFits xf adr s) :
    withRegisterAddress r xf adr s k = k ⟨r.toNat, hr⟩ (operandAddress xf adr s) := by
  simp [withRegisterAddress, checkReg_of_lt hr, effectiveAddress_of_fits hx hf]

theorem withRegisterAddress_bad_r (hr : 8 ≤ r.toNat) :
    withRegisterAddress r xf adr s k = .next (s.raise (.invalidRegister r)) := by
  simp [withRegisterAddress, checkReg_of_ge hr]

theorem withRegisterAddress_bad_xf (hr : r.toNat < 8) (hx : 8 ≤ xf.toNat) :
    withRegisterAddress r xf adr s k = .next (s.raise (.invalidRegister xf)) := by
  simp [withRegisterAddress, checkReg_of_lt hr, effectiveAddress_of_ge hx]

theorem withRegisterAddress_violates (hr : r.toNat < 8) (hx : xf.toNat < 8)
    (hf : ¬addressFits xf adr s) : withRegisterAddress r xf adr s k =
      .next (s.raise (.rangeViolation (exactAddress xf adr s))) := by
  simp [withRegisterAddress, checkReg_of_lt hr, effectiveAddress_of_not_fits hx hf]

end

/-! Format M: the branches -/

section
variable {taken : Bool}

theorem branchIf_ok (hx : xf.toNat < 8) (hf : addressFits xf adr s) :
    branchIf taken xf adr s =
      .next { s with pc := if taken then operandAddress xf adr s else s.pc + 2 } := by
  rw [branchIf, withTarget, effectiveAddress_of_fits hx hf, proceed_ok]
  cases taken with
  | true => rfl
  | false => exact congrArg Host.Outcome.next (s.advance_eq 2)

theorem branchIf_taken (hx : xf.toNat < 8) (hf : addressFits xf adr s) (h : taken = true) :
    branchIf taken xf adr s = .next { s with pc := operandAddress xf adr s } := by
  rw [branchIf_ok hx hf, if_pos h]

theorem branchIf_not_taken (hx : xf.toNat < 8) (hf : addressFits xf adr s) (h : taken = false) :
    branchIf taken xf adr s = .next { s with pc := s.pc + 2 } := by
  rw [branchIf_ok hx hf, if_neg (by simp [h])]

theorem branchIf_bad_xf (hx : 8 ≤ xf.toNat) :
    branchIf taken xf adr s = .next (s.raise (.invalidRegister xf)) := by
  rw [branchIf, withTarget, effectiveAddress_of_ge hx, proceed_error]

theorem branchIf_violates (hx : xf.toNat < 8) (hf : ¬addressFits xf adr s) :
    branchIf taken xf adr s = .next (s.raise (.rangeViolation (exactAddress xf adr s))) := by
  rw [branchIf, withTarget, effectiveAddress_of_not_fits hx hf, proceed_error]

end
end

theorem retire_eq (n : Nat) (s : State) :
    retire n s = .next { s with pc := s.pc + BitVec.ofNat 16 n } :=
  congrArg Host.Outcome.next (s.advance_eq n)

end Sys2Proof.Machine
end

section
/-! PROOF. Each instruction: its encoding, its next state and its faults in order (spec
41_load_store.md, 42_arithmetic_logic.md, 43_branch.md, 44_syscall_halt.md). -/

namespace Sys2Proof.Machine

/-! ### Load and store -/

/-- Settles O9: format RR, and the end of the handler is `retire_eq`. -/
theorem ldRegCopiesAndSetsFlags : Obligations.LdRegCopiesAndSetsFlags :=
  ⟨rfl, fun _ _ _ _ => ⟨rfl, fun hr hx => (withRegisters_ok hr hx).trans (retire_eq 1 _),
    withRegisters_bad_r, withRegisters_bad_xf⟩⟩

/-- Settles O10: format RM, and the end of the handler is `retire_eq`. -/
theorem ldMemLoadsAndSetsFlags : Obligations.LdMemLoadsAndSetsFlags :=
  ⟨rfl, fun _ _ _ _ _ => ⟨rfl,
    fun hr hx hf => (withRegisterAddress_ok hr hx hf).trans (retire_eq 2 _),
    withRegisterAddress_bad_r, withRegisterAddress_bad_xf, withRegisterAddress_violates⟩⟩

/-- Settles O11: format RM, and the end of the handler is `retire_eq`. -/
theorem ladLoadsTheAddress : Obligations.LadLoadsTheAddress :=
  ⟨rfl, fun _ _ _ _ _ => ⟨rfl,
    fun hr hx hf => (withRegisterAddress_ok hr hx hf).trans (retire_eq 2 _),
    withRegisterAddress_bad_r, withRegisterAddress_bad_xf, withRegisterAddress_violates⟩⟩

/-- Settles O12: format RM, and the end of the handler is `retire_eq`. -/
theorem stStoresTheRegister : Obligations.StStoresTheRegister :=
  ⟨rfl, fun _ _ _ _ _ => ⟨rfl,
    fun hr hx hf => (withRegisterAddress_ok hr hx hf).trans (retire_eq 2 _),
    withRegisterAddress_bad_r, withRegisterAddress_bad_xf, withRegisterAddress_violates⟩⟩

/-! ### Arithmetic, logic and compare -/

/-- Settles O13: format RR, and the end of the handler is `retire_eq`. -/
theorem andRegMasksAndSetsFlags : Obligations.AndRegMasksAndSetsFlags :=
  ⟨rfl, fun _ _ _ _ => ⟨rfl, fun hr hx => (withRegisters_ok hr hx).trans (retire_eq 1 _),
    withRegisters_bad_r, withRegisters_bad_xf⟩⟩

/-- Settles O14: format RM, and the end of the handler is `retire_eq`. -/
theorem andMemMasksAndSetsFlags : Obligations.AndMemMasksAndSetsFlags :=
  ⟨rfl, fun _ _ _ _ _ => ⟨rfl,
    fun hr hx hf => (withRegisterAddress_ok hr hx hf).trans (retire_eq 2 _),
    withRegisterAddress_bad_r, withRegisterAddress_bad_xf, withRegisterAddress_violates⟩⟩

/-- R65, R73: a result that fits is written with its flags. -/
theorem proceed_fitS_ok {s : State} {n : Int} {k : Word → Host.Outcome State Fault Refusal}
    (h : resultFits n s) : proceed (fitS s.params.strictRange n) s k = k (wrap16 n) := by
  rw [fitS_of_fits h, proceed_ok]

theorem proceed_fitS_violates {s : State} {n : Int} {k : Word → Host.Outcome State Fault Refusal}
    (h : ¬resultFits n s) :
    proceed (fitS s.params.strictRange n) s k = .next (s.raise (.rangeViolation n)) := by
  rw [fitS_of_not_fits h, proceed_error]

/-- Settles O15: format RR, then the exact difference fits or violates the range policy. -/
theorem subaWrapsAndFlagsTheExactDifference : Obligations.SubaWrapsAndFlagsTheExactDifference :=
  ⟨rfl, fun _ _ _ _ => ⟨rfl,
    fun hr hx hn => ((withRegisters_ok hr hx).trans (proceed_fitS_ok hn)).trans (retire_eq 1 _),
    fun hr hx hn => (withRegisters_ok hr hx).trans (proceed_fitS_violates hn),
    withRegisters_bad_r, withRegisters_bad_xf⟩⟩

/-- Settles O16: format RM, then the exact sum fits or violates the range policy. -/
theorem addaWrapsAndFlagsTheExactSum : Obligations.AddaWrapsAndFlagsTheExactSum :=
  ⟨rfl, fun _ _ _ _ _ => ⟨rfl,
    fun hr hx hf hn =>
      ((withRegisterAddress_ok hr hx hf).trans (proceed_fitS_ok hn)).trans (retire_eq 2 _),
    fun hr hx hf hn => (withRegisterAddress_ok hr hx hf).trans (proceed_fitS_violates hn),
    withRegisterAddress_bad_r, withRegisterAddress_bad_xf, withRegisterAddress_violates⟩⟩

/-- Settles O17: format RR, and the end of the handler is `retire_eq`. -/
theorem cpaRegFlagsTheExactDifference : Obligations.CpaRegFlagsTheExactDifference :=
  ⟨rfl, fun _ _ _ _ => ⟨rfl, fun hr hx => (withRegisters_ok hr hx).trans (retire_eq 1 _),
    withRegisters_bad_r, withRegisters_bad_xf⟩⟩

/-- Settles O18: format RM, and the end of the handler is `retire_eq`. -/
theorem cpaMemFlagsTheExactDifference : Obligations.CpaMemFlagsTheExactDifference :=
  ⟨rfl, fun _ _ _ _ _ => ⟨rfl,
    fun hr hx hf => (withRegisterAddress_ok hr hx hf).trans (retire_eq 2 _),
    withRegisterAddress_bad_r, withRegisterAddress_bad_xf, withRegisterAddress_violates⟩⟩

/-! ### Branches -/

/-- Settles O19: a branch that is always taken. -/
theorem jumpGoesToTheTarget : Obligations.JumpGoesToTheTarget :=
  ⟨rfl, fun _ _ _ _ _ => ⟨rfl, fun hx hf => branchIf_taken hx hf rfl, branchIf_bad_xf,
    branchIf_violates⟩⟩

/-- Settles O20: a branch taken on Z. -/
theorem jzeBranchesOnZero : Obligations.JzeBranchesOnZero :=
  ⟨rfl, fun _ _ _ _ _ => ⟨rfl, branchIf_taken, branchIf_not_taken, branchIf_bad_xf,
    branchIf_violates⟩⟩

/-- Settles O21: a branch taken on S. -/
theorem jmiBranchesOnSign : Obligations.JmiBranchesOnSign :=
  ⟨rfl, fun _ _ _ _ _ => ⟨rfl, branchIf_taken, branchIf_not_taken, branchIf_bad_xf,
    branchIf_violates⟩⟩

/-- Settles O22: a branch taken when neither S nor Z is set. -/
theorem jplBranchesOnPlus : Obligations.JplBranchesOnPlus := by
  refine ⟨rfl, fun _ _ xf adr s => ⟨rfl, fun hx hf hs hz => branchIf_taken hx hf (by simp [hs, hz]),
    fun hx hf h => branchIf_not_taken hx hf ?_, branchIf_bad_xf, branchIf_violates⟩⟩
  rcases h with h | h <;> simp [h]

/-! ### RET -/

/-- Settles O23: the encoding and the next state are the definitions. -/
theorem retHalts : Obligations.RetHalts := ⟨rfl, fun _ _ _ _ => ⟨rfl, rfl⟩⟩

/-! ### Two instructions in a row -/

/-- R78, R83: S after a compare is the signed order. -/
theorem flagsOf_sub_s (a b : Word) : (flagsOf (a.toInt - b.toInt)).s = a.slt b := by
  simp [flagsOf, BitVec.slt]

/-- R78, R82: Z after a compare is equality. -/
theorem flagsOf_sub_z (a b : Word) : (flagsOf (a.toInt - b.toInt)).z = decide (a = b) := by
  simp [flagsOf, Int.sub_eq_zero, BitVec.toInt_inj]

/-- R78, R84: neither S nor Z after a compare is the signed order the other way round. -/
theorem flagsOf_sub_plus (a b : Word) :
    (!(flagsOf (a.toInt - b.toInt)).s && !(flagsOf (a.toInt - b.toInt)).z) = b.slt a := by
  have horder : ¬a.toInt - b.toInt < 0 ∧ ¬a.toInt - b.toInt = 0 ↔ b.toInt < a.toInt := by omega
  simp only [flagsOf, BitVec.slt, ← decide_not, ← Bool.decide_and, horder]

/-- R60, R80: a branch in the state that a one-word compare has left, on a test `c` of its flags. -/
theorem branchIf_after_compare {taken : Bool} {c : Prop} [Decidable c] {xf : BitVec 4} {adr : Word}
    {s : State} (n : Int) (hx : xf.toNat < 8) (hf : addressFits xf adr s) (h : taken = decide c) :
    branchIf taken xf adr ((s.setFlags n).advance 1) =
      .next { (s.setFlags n).advance 1 with
        pc := if c then operandAddress xf adr s else s.pc + 3 } := by
  have hpc : ((s.setFlags n).advance 1).pc + 2 = s.pc + 3 := by
    rw [State.advance_eq]
    exact BitVec.add_assoc s.pc 1 2
  refine (branchIf_ok (s := (s.setFlags n).advance 1) hx hf).trans ?_
  rw [hpc, h]
  simp only [decide_eq_true_eq]
  rfl

/-- Settles O47: CPA sets the flags of the exact difference, and each branch tests them
(`branchIf_after_compare`). -/
theorem compareThenBranch : Obligations.CompareThenBranch := by
  intro s r xf q x adr hr hx hxi hf
  exact ⟨_, withRegisters_ok hr hx,
    branchIf_after_compare _ hxi hf ((flagsOf_sub_s _ _).trans Bool.decide_eq_true.symm),
    branchIf_after_compare _ hxi hf (flagsOf_sub_z _ _),
    branchIf_after_compare _ hxi hf ((flagsOf_sub_plus _ _).trans Bool.decide_eq_true.symm)⟩

/-- Settles O48: ST writes at `pc + 2` and goes there, where the next fetch reads first. -/
theorem storedWordIsFetchedNext : Obligations.StoredWordIsFetchedNext := by
  intro s r xf adr hr hm hx hf ha
  obtain ⟨-, hst, -⟩ := stStoresTheRegister.2 s.params.opcodes r xf adr s
  refine ⟨_, hst hr hx hf, rfl, ?_⟩
  have hread : (s.memWrite (s.pc + 2) s.gr[r.toNat]).memRead (s.pc + 2) = s.gr[r.toNat] :=
    State.memRead_memWrite_self hm _ _
  rw [ha]
  exact congrArg some hread

end Sys2Proof.Machine
end

section
/-! PROOF. The faults an instruction raises: their order, and the range policy (spec 60_exceptions.md
R96, R97, R100). -/

namespace Sys2Proof.Machine

/-- Settles O38: `exec_effect`. -/
theorem everyInstructionAnswersANextState : Obligations.EveryInstructionAnswersANextState := by
  intro i s
  obtain ⟨t, ht, -⟩ := exec_effect i s
  exact ⟨t, ht⟩

/-! ### The order of the register faults -/

/-- R41, R96: field `r` is checked first by every instruction that uses it. -/
theorem exec_bad_r {i : Instr} {s : State} {r : BitVec 4} (hu : usedR i = some r)
    (hr : 8 ≤ r.toNat) : exec i s = .next (s.raise (.invalidRegister r)) := by
  cases i with
  | ldReg | subaReg | andReg | cpaReg =>
    cases hu
    exact withRegisters_bad_r hr
  | ldMem | st | lad | addaMem | andMem | cpaMem =>
    cases hu
    exact withRegisterAddress_bad_r hr
  | jmi | jze | jump | jpl | ret | svc => cases hu

theorem namesNoRegister_eq_false {r : BitVec 4} : namesNoRegister (some r) = false ↔ r.toNat < 8 := by
  simp [namesNoRegister]

/-- R40, R41, R96: field `xf` is checked next, before the instruction does anything else. -/
theorem exec_bad_xf {i : Instr} {s : State} {xf : BitVec 4}
    (hr : namesNoRegister (usedR i) = false) (hu : usedXf i = some xf) (hx : 8 ≤ xf.toNat) :
    exec i s = .next (s.raise (.invalidRegister xf)) := by
  cases i with
  | ldReg | subaReg | andReg | cpaReg =>
    cases hu
    exact withRegisters_bad_xf (namesNoRegister_eq_false.1 hr) hx
  | ldMem | st | lad | addaMem | andMem | cpaMem =>
    cases hu
    exact withRegisterAddress_bad_xf (namesNoRegister_eq_false.1 hr) hx
  | jmi | jze | jump | jpl =>
    cases hu
    exact branchIf_bad_xf hx
  | ret | svc => cases hu

/-- Settles O35: `exec_bad_r` and `exec_bad_xf`. -/
theorem faultOrderIsRThenXf : Obligations.FaultOrderIsRThenXf :=
  fun _ _ => ⟨fun _ => exec_bad_r, fun _ => exec_bad_xf⟩

/-! ### The range policy -/

/-- Without STRICT_RANGE the one fault of an instruction is InvalidRegister: the outcome is a next
state that keeps the fault record or has raised it. -/
def FaultsOnlyOnRegisters (s : State) (o : Host.Outcome State Fault Refusal) : Prop :=
  ∃ t, o = .next t ∧ (t.fault = s.fault ∨ ∃ i, t = s.raise (.invalidRegister i))

theorem FaultsOnlyOnRegisters.raise (s : State) (i : BitVec 4) :
    FaultsOnlyOnRegisters s (.next (s.raise (.invalidRegister i))) :=
  ⟨_, rfl, .inr ⟨i, rfl⟩⟩

theorem FaultsOnlyOnRegisters.keep {s t : State} (h : t.fault = s.fault) :
    FaultsOnlyOnRegisters s (.next t) :=
  ⟨t, rfl, .inl h⟩

section
variable {r xf : BitVec 4} {adr : Word} {s : State}

theorem withRegisters_faults {k : Fin 8 → Fin 8 → Host.Outcome State Fault Refusal}
    (h : ∀ i j, FaultsOnlyOnRegisters s (k i j)) :
    FaultsOnlyOnRegisters s (withRegisters r xf s k) := by
  rcases withRegisters_cases r xf s k with ⟨-, e⟩ | ⟨-, -, e⟩ | ⟨hr, hx, e⟩ <;> rw [e]
  · exact .raise s r
  · exact .raise s xf
  · exact h _ _

variable (hs : s.params.strictRange = false)
include hs

/-- R65: without STRICT_RANGE every result fits. -/
theorem resultFits_of_wrap (n : Int) : resultFits n s := fun h => by simp [hs] at h

/-- R65: without STRICT_RANGE every address fits. -/
theorem addressFits_of_wrap (xf : BitVec 4) (adr : Word) : addressFits xf adr s :=
  fun h => by simp [hs] at h

theorem withRegisterAddress_faults {k : Fin 8 → Word → Host.Outcome State Fault Refusal}
    (h : ∀ i a, FaultsOnlyOnRegisters s (k i a)) :
    FaultsOnlyOnRegisters s (withRegisterAddress r xf adr s k) := by
  rcases Nat.lt_or_ge r.toNat 8 with hr | hr
  · rcases Nat.lt_or_ge xf.toNat 8 with hx | hx
    · exact withRegisterAddress_ok hr hx (addressFits_of_wrap hs xf adr) ▸ h _ _
    · exact withRegisterAddress_bad_xf hr hx ▸ .raise s xf
  · exact withRegisterAddress_bad_r hr ▸ .raise s r

theorem branchIf_faults (taken : Bool) : FaultsOnlyOnRegisters s (branchIf taken xf adr s) := by
  rcases Nat.lt_or_ge xf.toNat 8 with hx | hx
  · exact branchIf_ok hx (addressFits_of_wrap hs xf adr) ▸ .keep rfl
  · exact branchIf_bad_xf hx ▸ .raise s xf

/-- R65, R97: without STRICT_RANGE an instruction raises InvalidRegister alone. -/
theorem exec_faults (i : Instr) : FaultsOnlyOnRegisters s (exec i s) := by
  cases i with
  | ldReg | andReg | cpaReg => exact withRegisters_faults fun _ _ => .keep rfl
  | subaReg =>
    exact withRegisters_faults fun _ _ =>
      proceed_fitS_ok (resultFits_of_wrap hs _) ▸ .keep rfl
  | ldMem | st | lad | andMem | cpaMem => exact withRegisterAddress_faults hs fun _ _ => .keep rfl
  | addaMem =>
    exact withRegisterAddress_faults hs fun _ _ =>
      proceed_fitS_ok (resultFits_of_wrap hs _) ▸ .keep rfl
  | jmi | jze | jump | jpl => exact branchIf_faults hs _
  | ret => exact .keep rfl
  | svc r call =>
    cases call with
    | input | output | other => exact .keep rfl

end

/-- Settles O37: the step raises UndefinedOpcode, or its instruction raises InvalidRegister or
nothing (`exec_faults`). -/
theorem rangeViolationNeedsStrictRange : Obligations.RangeViolationNeedsStrictRange := by
  intro s t hr hs hc h
  rcases effect_of_step hr h with ⟨i, -, hx, -⟩ | ⟨-, rfl⟩
  · obtain ⟨u, hu, hk⟩ := exec_faults hs i
    cases hu.symm.trans hx
    rcases hk with hk | ⟨x, rfl⟩
    · rwa [hk]
    · simp [Trap.cause]
  · simp [Trap.cause]

end Sys2Proof.Machine
end

section
/-! PROOF. What an instruction leaves unchanged (spec 10_state.md R10 to R12; 20_memory.md R35;
40_sequencer.md R59, R60). -/

namespace Sys2Proof.Machine

/-! ### General registers -/

/-- R10: the registers are kept, or the destination alone is written. -/
theorem Effect.gr_cases {i : Instr} {s t : State} (h : Effect i s t) :
    t.gr = s.gr ∨
      ∃ (d : BitVec 4) (hd : d.toNat < 8) (v : Word), destReg i = some d ∧
        t.gr = s.gr.set d.toNat v := by
  cases h with
  | raised | halted | waits | emits | passes | stores | compares | jumps | falls => exact .inl rfl
  | loadsAddress r _ _ hi hr a _ => exact .inr ⟨r, hr, a, hi ▸ rfl, rfl⟩
  | results d hr v _ hd _ => exact .inr ⟨d, hr, v, hd, rfl⟩

/-- Settles O39, by `Effect.gr_cases`. -/
theorem onlyTheDestinationRegisterChanges : Obligations.OnlyTheDestinationRegisterChanges := by
  intro i s t h k hk
  rcases (effect_of_exec h).gr_cases with e | ⟨d, hd, v, hi, e⟩
  · rw [e]
  · rw [e]
    exact Vector.getElem_set_ne hd k.isLt (hk d hi).symm

/-! ### The Word Store -/

/-- R35, R72: the Word Store is kept, or ST has written at its effective address. -/
theorem Effect.mem_cases {i : Instr} {s t : State} (h : Effect i s t) :
    t.mem = s.mem ∨
      ∃ (r xf : BitVec 4) (adr a v : Word), i = .st r xf adr ∧ effectiveAddress xf adr s = .ok a ∧
        t.mem = (s.memWrite a v).mem := by
  cases h with
  | raised | halted | waits | emits | passes | loadsAddress | results | compares | jumps | falls =>
    exact .inl rfl
  | stores r xf adr hi _ a ha => exact .inr ⟨r, xf, adr, a, _, hi, ha, rfl⟩

/-- R25: a read looks at the Word Store alone. -/
theorem State.memRead_congr {s t : State} (h : t.mem = s.mem) (b : Word) :
    t.memRead b = s.memRead b :=
  congrArg (Memory.get · (uint b)) h

/-- Settles O41, by `Effect.mem_cases`. -/
theorem onlyStStoresAndOnlyAtItsAddress : Obligations.OnlyStStoresAndOnlyAtItsAddress := by
  constructor
  · intro r xf adr s t h
    rcases (effect_of_exec h).mem_cases with e | ⟨_, _, _, a, v, hi, ha, e⟩
    · exact ⟨fun _ _ b _ => State.memRead_congr e b, fun _ _ => State.memRead_congr e⟩
    · cases hi
      constructor
      · intro a' ha' b hb
        cases ha.symm.trans ha'
        rw [State.memRead_congr e, State.memRead_memWrite_ne s v hb]
      · intro tr htr
        cases ha.symm.trans htr
  · intro i s t hi h
    rcases (effect_of_exec h).mem_cases with e | ⟨r, xf, adr, _, _, he, -, -⟩
    · exact State.memRead_congr e
    · exact absurd he (hi r xf adr)

/-! ### Everything else -/

/-- Settles O42, by the effect of the instruction. -/
theorem otherStateChangesOnlyAsNamed : Obligations.OtherStateChangesOnlyAsNamed := by
  intro i s t h
  cases effect_of_exec h with
  | raised tr _ => exact ⟨rfl, rfl, .inr ⟨tr, rfl⟩, fun _ => rfl, .inr (.inl ⟨tr, rfl⟩)⟩
  | halted r xf hi =>
    exact ⟨rfl, rfl, .inl rfl, fun _ => rfl, .inr (.inr (.inl ⟨rfl, r, xf, hi⟩))⟩
  | waits r dA cA hi =>
    refine ⟨rfl, rfl, .inl rfl, fun hne => ?_, .inr (.inr (.inr ⟨r, dA, cA, hi, rfl⟩))⟩
    exact absurd hi (hne r dA cA).1
  | emits r dA cA hi =>
    exact ⟨rfl, rfl, .inl rfl, fun hne => absurd hi (hne r dA cA).2, .inl rfl⟩
  | passes | stores | loadsAddress | results | compares | jumps | falls =>
    exact ⟨rfl, rfl, .inl rfl, fun _ => rfl, .inl rfl⟩

/-! ### The program counter -/

theorem State.toNat_advance_pc (s : State) (n : Nat) :
    (s.advance n).pc.toNat = (s.pc.toNat + n) % 65536 := by
  rw [State.advance_eq, BitVec.toNat_add, BitVec.toNat_ofNat, Nat.add_mod_mod]

theorem words_svcOther {r t : BitVec 4} (h : (Instr.svc r (.other t)).wellFormed = true) :
    (Instr.svc r (.other t)).words = 1 := by
  obtain ⟨h1, h2⟩ := SvcCall.wellFormed_other.1 h
  exact if_neg (not_or.2 ⟨h1, h2⟩)

/-- Settles O43, by the effect of the instruction. -/
theorem pcAdvancesByTheInstructionsWords : Obligations.PcAdvancesByTheInstructionsWords := by
  intro i s t hw h
  cases effect_of_exec h with
  | raised tr _ => exact .inl ⟨tr, rfl⟩
  | halted _ _ hi | waits _ _ _ hi =>
    subst hi
    exact .inr rfl
  | emits _ _ _ hi =>
    subst hi
    exact .inr (State.toNat_advance_pc _ 3)
  | passes _ _ hi =>
    subst hi
    exact .inr ((State.toNat_advance_pc _ 1).trans (by rw [words_svcOther hw]))
  | stores _ _ _ hi _ _ _ | loadsAddress _ _ _ hi _ _ _ =>
    subst hi
    exact .inr (State.toNat_advance_pc _ 2)
  | results _ _ _ _ _ hwr | compares _ _ hwr =>
    cases i with
    | ldMem | ldReg | addaMem | subaReg | andMem | andReg | cpaMem | cpaReg =>
      exact .inr (State.toNat_advance_pc _ _)
    | st | lad | jmi | jze | jump | jpl | ret | svc => cases hwr
  | jumps _ _ a hi ha =>
    cases i with
    | jump =>
      cases hi
      exact .inr ha
    | jmi | jze | jpl =>
      cases hi
      exact .inr (.inl ha)
    | _ => cases hi
  | falls xf adr hi hj =>
    cases i with
    | jump r =>
      cases hi
      exact absurd rfl (hj r)
    | jmi | jze | jpl =>
      cases hi
      exact .inr (.inr (congrArg State.pc (s.advance_eq 2)))
    | _ => cases hi

end Sys2Proof.Machine
end

section
/-! PROOF. The memory-port transactions (spec 20_memory.md R35). -/

namespace Sys2Proof.Machine

theorem PortOp.applyAll_append (ops ops' : List PortOp) (m : Memory) :
    applyAll (ops ++ ops') m = applyAll ops' (applyAll ops m) := by
  induction ops generalizing m with
  | nil => rfl
  | cons op ops ih =>
    cases op with
    | read _ => exact ih m
    | write a v => exact ih (m.set (uint a) v)

/-- R25: reads leave the Word Store as it is. -/
theorem PortOp.applyAll_readOps (a : Word) (n : Nat) (m : Memory) :
    applyAll (readOps a n) m = m := by
  induction n generalizing a with
  | zero => rfl
  | succ n ih => exact ih (a + 1)

/-- R87: the writes of the codes leave what `State.writeCodes` leaves. -/
theorem PortOp.applyAll_writeOps (s : State) (a : Word) (cs : List Word) :
    applyAll (writeOps a cs) s.mem = (s.writeCodes a cs).mem := by
  induction cs generalizing s a with
  | nil => rfl
  | cons c cs ih => exact ih (s.memWrite a c) (a + 1)

/-- R35: `F, A1`, and the operand's transaction when the operands are there. -/
theorem operandOps_cases (r xf : BitVec 4) (adr : Word) (s : State) (k : Fin 8 → Word → PortOp) :
    operandOps r xf adr s k = addressOps s ∨
      ∃ i a, checkReg r = .ok i ∧ effectiveAddress xf adr s = .ok a ∧
        operandOps r xf adr s k = addressOps s ++ [k i a] := by
  unfold operandOps
  cases checkReg r with
  | error => exact .inl rfl
  | ok i =>
    cases effectiveAddress xf adr s with
    | error => exact .inl rfl
    | ok a => exact .inr ⟨i, a, rfl, rfl, rfl⟩

theorem operandOps_head (r xf : BitVec 4) (adr : Word) (s : State) (k : Fin 8 → Word → PortOp) :
    (operandOps r xf adr s k).head? = some (.read s.pc) := by
  rcases operandOps_cases r xf adr s k with e | ⟨_, _, -, -, e⟩ <;> rw [e] <;> rfl

/-- R35: the fetch is the first transaction of every instruction. -/
theorem portOps_head (i : Instr) (s : State) : (portOps i s).head? = some (.read s.pc) := by
  cases i with
  | ldMem | st | addaMem | andMem | cpaMem => exact operandOps_head _ _ _ _ _
  | lad | jmi | jze | jump | jpl | ldReg | subaReg | andReg | cpaReg | ret => rfl
  | svc r call => cases call <;> rfl

/-- R35: an operand that is read leaves the Word Store as it is. -/
theorem applyAll_operandOps_read (r xf : BitVec 4) (adr : Word) (s : State) (m : Memory) :
    PortOp.applyAll (operandOps r xf adr s fun _ a => .read a) m = m := by
  rcases operandOps_cases r xf adr s fun _ a => .read a with e | ⟨_, _, -, -, e⟩ <;> rw [e] <;> rfl

/-- R35: no instruction but ST lists a write. -/
theorem applyAll_portOps_of_not_st {i : Instr} (h : ∀ r xf adr, i ≠ .st r xf adr) (s : State)
    (m : Memory) : PortOp.applyAll (portOps i s) m = m := by
  cases i with
  | st r xf adr => exact absurd rfl (h r xf adr)
  | ldMem | addaMem | andMem | cpaMem => exact applyAll_operandOps_read _ _ _ _ _
  | lad | jmi | jze | jump | jpl | ldReg | subaReg | andReg | cpaReg | ret => rfl
  | svc r call =>
    cases call with
    | input | other => rfl
    | output dA cA =>
      exact (PortOp.applyAll_append _ _ m).trans (PortOp.applyAll_readOps dA _ m)

/-- R35, R72: ST lists the write it makes, and none when it raises a fault. -/
theorem mem_execSt {r xf : BitVec 4} {adr : Word} {s t : State}
    (h : exec (.st r xf adr) s = .next t) :
    t.mem = PortOp.applyAll (portOps (.st r xf adr) s) s.mem := by
  change withRegisterAddress r xf adr s _ = _ at h
  change _ = PortOp.applyAll (operandOps r xf adr s _) s.mem
  cases hr : checkReg r with
  | error tr =>
    simp only [withRegisterAddress, hr, proceed_error] at h
    cases h
    simp only [operandOps, hr]
    rfl
  | ok i =>
    cases ha : effectiveAddress xf adr s with
    | error tr =>
      simp only [withRegisterAddress, hr, ha, proceed_ok, proceed_error] at h
      cases h
      simp only [operandOps, hr, ha]
      rfl
    | ok a =>
      simp only [withRegisterAddress, hr, ha, proceed_ok] at h
      cases h
      simp only [operandOps, hr, ha]
      rfl

/-- Settles O49: ST by `mem_execSt`, the others neither list a write nor store, and the completion of
an SVC type 1 is the writes of its codes and then of its count. -/
theorem memoryFollowsThePortTransactions : Obligations.MemoryFollowsThePortTransactions := by
  refine ⟨fun i s t => ⟨portOps_head i s, fun h => ?_⟩, fun s ctx codes => ?_⟩
  · by_cases hi : ∃ r xf adr, i = .st r xf adr
    · obtain ⟨r, xf, adr, rfl⟩ := hi
      exact mem_execSt h
    · have hne : ∀ r xf adr, i ≠ .st r xf adr := fun r xf adr e => hi ⟨r, xf, adr, e⟩
      rw [applyAll_portOps_of_not_st hne]
      rcases (effect_of_exec h).mem_cases with e | ⟨r, xf, adr, _, _, e, -, -⟩
      · exact e
      · exact absurd e (hne r xf adr)
  · rw [inputOps, PortOp.applyAll_append, PortOp.applyAll_writeOps]
    rfl

end Sys2Proof.Machine
end

section
/-! PROOF. What has no influence on an instruction: the registers it does not read, and O (spec
10_state.md R10, R15). -/

namespace Sys2Proof.Machine

/-- Both outcomes are next states, and the relation `R` holds of the two. -/
def Related (R : State → State → Prop) (o o' : Host.Outcome State Fault Refusal) : Prop :=
  ∃ t t', o = .next t ∧ o' = .next t' ∧ R t t'

theorem Related.next {R : State → State → Prop} {t t' : State} (h : R t t') :
    Related R (.next t) (.next t') :=
  ⟨t, t', rfl, rfl, h⟩

/-- What the first outcome is known to answer, the second answers up to `R`. -/
theorem Related.of_next {R : State → State → Prop} {o o' : Host.Outcome State Fault Refusal}
    {t : State} (h : Related R o o') (ht : o = .next t) : ∃ t', o' = .next t' ∧ R t t' := by
  obtain ⟨u, u', hu, hu', hr⟩ := h
  cases hu.symm.trans ht
  exact ⟨u', hu', hr⟩

section
variable {R : State → State → Prop} {s s' : State}
  (hraise : ∀ tr, R (s.raise tr) (s'.raise tr))
include hraise

/-- A check that comes out alike is followed by related outcomes when what goes on is related. -/
theorem proceed_related {α : Type} {c : Except Trap α}
    {k k' : α → Host.Outcome State Fault Refusal} (hk : ∀ v, c = .ok v → Related R (k v) (k' v)) :
    Related R (proceed c s k) (proceed c s' k') := by
  cases c with
  | error tr => exact .next (hraise tr)
  | ok v => exact hk v rfl

theorem withRegisters_related {r xf : BitVec 4}
    {k k' : Fin 8 → Fin 8 → Host.Outcome State Fault Refusal}
    (hk : ∀ i j, checkReg r = .ok i → checkReg xf = .ok j → Related R (k i j) (k' i j)) :
    Related R (withRegisters r xf s k) (withRegisters r xf s' k') :=
  proceed_related hraise fun i hi => proceed_related hraise fun j hj => hk i j hi hj

theorem withRegisterAddress_related {r xf : BitVec 4} {adr : Word}
    {k k' : Fin 8 → Word → Host.Outcome State Fault Refusal}
    (ha : effectiveAddress xf adr s' = effectiveAddress xf adr s)
    (hk : ∀ i a, checkReg r = .ok i → Related R (k i a) (k' i a)) :
    Related R (withRegisterAddress r xf adr s k) (withRegisterAddress r xf adr s' k') := by
  unfold withRegisterAddress
  rw [ha]
  exact proceed_related hraise fun i hi => proceed_related hraise fun a _ => hk i a hi

theorem branchIf_related {taken : Bool} {xf : BitVec 4} {adr : Word}
    (ha : effectiveAddress xf adr s' = effectiveAddress xf adr s)
    (hjump : ∀ a, R (s.setPc a) (s'.setPc a)) (hfall : R (s.advance 2) (s'.advance 2)) :
    Related R (branchIf taken xf adr s) (branchIf taken xf adr s') := by
  unfold branchIf withTarget
  rw [ha]
  refine proceed_related hraise fun a _ => ?_
  cases taken with
  | true => exact .next (hjump a)
  | false => exact .next hfall

end

/-- R88: the text of an SVC type 2 depends on the Word Store and the parameters alone. -/
theorem outputText_congr {s t : State} (hm : t.mem = s.mem) (hp : t.params = s.params)
    (dA cA : Word) : outputText dA cA t = outputText dA cA s := by
  simp only [outputText, outputLength, State.readCodes_eq_map, State.memRead_congr hm, hp]

/-! ### O -/

/-- The state with another O. -/
abbrev State.withO (s : State) (b : Bool) : State := { s with flags := { s.flags with o := b } }

/-- R15: the next state is the same, for a flag writer, or the same but for O. -/
def SameButO (i : Instr) (b : Bool) (t t' : State) : Prop :=
  (writesFlags i = true ∧ t' = t) ∨ t' = t.withO b

/-- R15: no instruction reads O. -/
theorem exec_withO (i : Instr) (s : State) (b : Bool) :
    Related (SameButO i b) (exec i s) (exec i (s.withO b)) := by
  have hraise (tr : Trap) : SameButO i b (s.raise tr) ((s.withO b).raise tr) := .inr rfl
  cases i with
  | ldReg | andReg | cpaReg =>
    exact withRegisters_related hraise fun _ _ _ _ => .next (.inl ⟨rfl, rfl⟩)
  | subaReg =>
    exact withRegisters_related hraise fun _ _ _ _ =>
      proceed_related hraise fun _ _ => .next (.inl ⟨rfl, rfl⟩)
  | ldMem | andMem | cpaMem =>
    exact withRegisterAddress_related hraise rfl fun _ _ _ => .next (.inl ⟨rfl, rfl⟩)
  | addaMem =>
    exact withRegisterAddress_related hraise rfl fun _ _ _ =>
      proceed_related hraise fun _ _ => .next (.inl ⟨rfl, rfl⟩)
  | st | lad => exact withRegisterAddress_related hraise rfl fun _ _ _ => .next (.inr rfl)
  | jmi | jze | jump | jpl => exact branchIf_related hraise rfl (fun _ => .inr rfl) (.inr rfl)
  | ret => exact .next (.inr rfl)
  | svc r call =>
    cases call with
    | input | other => exact .next (.inr rfl)
    | output dA cA =>
      refine .next (.inr ?_)
      rw [outputText_congr (s := s) (t := s.withO b) rfl rfl]
      rfl

/-- Settles O46, by `exec_withO`. -/
theorem overflowFlagIsNeverRead : Obligations.OverflowFlagIsNeverRead :=
  fun i s _ b h => (exec_withO i s b).of_next h

/-! ### Registers that are not read -/

/-- A write of another register comes before or after alike. -/
theorem State.setReg_comm (s : State) {k d : Fin 8} (h : d ≠ k) (v w : Word) :
    (s.setReg k v).setReg d w = (s.setReg d w).setReg k v := by
  have hne : (k : Nat) ≠ d := fun e => h (Fin.ext e.symm)
  exact congrArg (fun g => { s with gr := g }) (Vector.set_comm v w hne)

theorem State.reg_setReg_ne (s : State) {k j : Fin 8} (h : j ≠ k) (v : Word) :
    (s.setReg k v).reg j = s.reg j := by
  rw [State.reg_setReg, if_neg h]

/-- A checked field that is not `k`'s names another register. -/
theorem ne_of_checkReg {f : BitVec 4} {j k : Fin 8} (hj : checkReg f = .ok j) (h : f.toNat ≠ k) :
    j ≠ k := by
  rcases checkReg_cases f with ⟨hf, e⟩ | ⟨-, e⟩
  · cases e.symm.trans hj
    exact fun hk => h (congrArg Fin.val hk)
  · cases e.symm.trans hj

/-- R63: a register that is not the index has no part in the effective address. -/
theorem effectiveAddress_setReg {xf : BitVec 4} {k : Fin 8} (h : ∀ f ∈ indexFields xf, f.toNat ≠ k)
    (adr : Word) (s : State) (v : Word) :
    effectiveAddress xf adr (s.setReg k v) = effectiveAddress xf adr s := by
  refine effectiveAddress_congr xf adr rfl fun x h0 hx => s.reg_setReg_ne (fun hk => ?_) v
  exact h xf (by simp [indexFields, h0]) (hk ▸ hx.symm)

/-- A result in another register comes before or after alike. -/
theorem State.setReg_setResult_advance (s : State) {k d : Fin 8} (h : d ≠ k) (v w : Word) (n : Int)
    (m : Nat) : ((s.setReg k v).setResult d w n).advance m =
      ((s.setResult d w n).advance m).setReg k v :=
  congrArg (fun u => (u.setFlags n).advance m) (s.setReg_comm h v w)

/-- R10: the next state is the same with `v` in GR `k`. -/
def CarriesReg (k : Fin 8) (v : Word) (t t' : State) : Prop := t' = t.setReg k v

section
variable {k : Fin 8} {v : Word} {s : State} {r xf : BitVec 4} {adr : Word}

theorem carriesReg_raise (tr : Trap) : CarriesReg k v (s.raise tr) ((s.setReg k v).raise tr) := rfl

/-- Format RR with two registers other than `k`. -/
theorem withRegisters_setReg {g g' : Fin 8 → Fin 8 → Host.Outcome State Fault Refusal}
    (hr : r.toNat ≠ k) (hx : xf.toNat ≠ k)
    (hh : ∀ i j, i ≠ k → j ≠ k → Related (CarriesReg k v) (g i j) (g' i j)) :
    Related (CarriesReg k v) (withRegisters r xf s g) (withRegisters r xf (s.setReg k v) g') :=
  withRegisters_related carriesReg_raise fun i j hi hj =>
    hh i j (ne_of_checkReg hi hr) (ne_of_checkReg hj hx)

/-- Format RM with a register and an index other than `k`. -/
theorem withRegisterAddress_setReg {g g' : Fin 8 → Word → Host.Outcome State Fault Refusal}
    (hr : r.toNat ≠ k) (hx : ∀ f ∈ indexFields xf, f.toNat ≠ k)
    (hh : ∀ i a, i ≠ k → Related (CarriesReg k v) (g i a) (g' i a)) :
    Related (CarriesReg k v) (withRegisterAddress r xf adr s g)
      (withRegisterAddress r xf adr (s.setReg k v) g') :=
  withRegisterAddress_related carriesReg_raise (effectiveAddress_setReg hx adr s v) fun i a hi =>
    hh i a (ne_of_checkReg hi hr)

end

/-- R10: an instruction answers alike whatever a register holds that it neither reads nor writes, and
carries the register through. -/
theorem exec_setReg {i : Instr} {k : Fin 8} (hread : ∀ f ∈ readRegs i, f.toNat ≠ k)
    (hdest : ∀ d, destReg i = some d → d.toNat ≠ k) (s : State) (v : Word) :
    Related (CarriesReg k v) (exec i s) (exec i (s.setReg k v)) := by
  cases i with
  | ldReg r xf | andReg r xf =>
    refine withRegisters_setReg (hdest r rfl) (hread xf (by simp [readRegs])) fun i j hi hj => ?_
    simp only [s.reg_setReg_ne hi, s.reg_setReg_ne hj]
    exact .next (s.setReg_setResult_advance hi v _ _ 1)
  | subaReg r xf =>
    refine withRegisters_setReg (hdest r rfl) (hread xf (by simp [readRegs])) fun i j hi hj => ?_
    simp only [s.reg_setReg_ne hi, s.reg_setReg_ne hj]
    exact proceed_related carriesReg_raise fun w _ =>
      .next (s.setReg_setResult_advance hi v w _ 1)
  | cpaReg r xf =>
    refine withRegisters_setReg (hread r (by simp [readRegs])) (hread xf (by simp [readRegs]))
      fun i j hi hj => ?_
    simp only [s.reg_setReg_ne hi, s.reg_setReg_ne hj]
    exact .next rfl
  | ldMem r xf adr =>
    exact withRegisterAddress_setReg (hdest r rfl) hread fun i a hi =>
      .next (s.setReg_setResult_advance hi v _ _ 2)
  | lad r xf adr =>
    exact withRegisterAddress_setReg (hdest r rfl) hread fun i a hi =>
      .next (congrArg (State.advance · 2) (s.setReg_comm hi v a))
  | andMem r xf adr =>
    refine withRegisterAddress_setReg (hdest r rfl) (List.forall_mem_cons.1 hread).2
      fun i a hi => ?_
    simp only [s.reg_setReg_ne hi]
    exact .next (s.setReg_setResult_advance hi v _ _ 2)
  | addaMem r xf adr =>
    refine withRegisterAddress_setReg (hdest r rfl) (List.forall_mem_cons.1 hread).2
      fun i a hi => ?_
    simp only [s.reg_setReg_ne hi]
    exact proceed_related carriesReg_raise fun w _ =>
      .next (s.setReg_setResult_advance hi v w _ 2)
  | st r xf adr | cpaMem r xf adr =>
    obtain ⟨hr, hx⟩ := List.forall_mem_cons.1 hread
    refine withRegisterAddress_setReg hr hx fun i a hi => ?_
    simp only [s.reg_setReg_ne hi]
    exact .next rfl
  | jmi _ xf adr | jze _ xf adr | jump _ xf adr | jpl _ xf adr =>
    exact branchIf_related carriesReg_raise (effectiveAddress_setReg hread adr s v) (fun _ => rfl) rfl
  | ret => exact .next rfl
  | svc r call =>
    cases call with
    | input | other => exact .next rfl
    | output dA cA =>
      refine .next ?_
      rw [outputText_congr (s := s) (t := s.setReg k v) rfl rfl]
      rfl

/-- Settles O45, by `exec_setReg`. -/
theorem unreadRegistersDoNotMatter : Obligations.UnreadRegistersDoNotMatter := by
  intro i s t k v hread hdest h
  obtain ⟨t', ht', rfl⟩ := (exec_setReg hread hdest s v).of_next h
  exact ht'

end Sys2Proof.Machine
end

section
/-! PROOF. The control port and the state access port (spec 10_state.md R20, R22; 40_sequencer.md R55,
R56; 70_reset_and_hazards.md R110 to R113, R117). -/

namespace Sys2Proof.Machine

theorem guarded_allowed {a : Bool} (h : a = true) (s t : State) (r : Reply) :
    guarded a s t r = .next (t, r) := if_pos h

theorem guarded_turnedAway {a : Bool} (h : a = false) (s t : State) (r : Reply) :
    guarded a s t r = .next (s, .turnedAway) := if_neg (by simp [h])

theorem Seq.waiting_eq_false {q : Seq} (h : ∀ ctx, q ≠ .waitInput ctx) : q.waiting = false := by
  cases q with
  | waitInput ctx => exact absurd rfl (h ctx)
  | _ => rfl

/-- Settles O54: the guard of `start(a)` is that no SVC waits. -/
theorem startSetsPcAndClearsTheCause : Obligations.StartSetsPcAndClearsTheCause := by
  refine fun s a => ⟨fun h => ?_, fun ctx h => ?_⟩
  · have hw : (!s.seq.waiting) = true := by rw [Seq.waiting_eq_false h]; rfl
    exact guarded_allowed hw s (s.start a) .accepted
  · have hw : (!s.seq.waiting) = false := by rw [h]; rfl
    exact guarded_turnedAway hw s (s.start a) .accepted

/-- Settles O55: the guard of every write is that the unit is stopped. -/
theorem driverWritesOnlyAStoppedUnit : Obligations.DriverWritesOnlyAStoppedUnit := by
  refine fun s i a v f => ⟨fun h => ?_, fun h => ?_⟩
  · have hw : s.seq.writable = true := by rcases h with h | h | h <;> rw [h] <;> rfl
    exact ⟨guarded_allowed hw _ _ _, guarded_allowed hw _ _ _, guarded_allowed hw _ _ _,
      guarded_allowed hw _ _ _⟩
  · have hw : s.seq.writable = false := by rcases h with h | ⟨ctx, h⟩ <;> rw [h] <;> rfl
    exact ⟨guarded_turnedAway hw _ _ _, guarded_turnedAway hw _ _ _, guarded_turnedAway hw _ _ _,
      guarded_turnedAway hw _ _ _⟩

/-- R17: no instruction leads to IDLE. -/
theorem Effect.seq_ne_idle {i : Instr} {s t : State} (h : Effect i s t) (hs : s.seq ≠ .idle) :
    t.seq ≠ .idle := by
  cases h with
  | raised | halted | waits => simp
  | emits | passes | stores | loadsAddress | results | compares | jumps | falls => exact hs

theorem seq_ne_idle_of_step {s t : State} (hr : s.seq = .ready) (h : step s = .next t) :
    t.seq ≠ .idle := by
  rcases effect_of_step hr h with ⟨_, -, -, he⟩ | ⟨-, rfl⟩
  · exact he.seq_ne_idle (by simp [hr])
  · simp

/-- R56: `step()` in READY is the step, with the reply its end calls for. -/
theorem perform_step_of_ready {s t : State} (hr : s.seq = .ready) (h : step s = .next t) :
    perform .step s = .next (t, stepReply t) := by
  simp only [perform, performStep, hr]
  exact withReply_eq_next.2 ⟨h, rfl⟩

/-- Settles O56: `perform_step_of_ready`, and the reply by the sequencer state at the end. -/
theorem stepReportsStillRunning : Obligations.StepReportsStillRunning := by
  constructor
  · intro s hr
    obtain ⟨t, ht, -⟩ := step_ready hr
    have reply {r : Reply} (h : stepReply t = r) : perform .step s = .next (t, r) :=
      h ▸ perform_step_of_ready hr ht
    exact ⟨t, ht, fun h => reply (by simp only [stepReply, h]),
      fun h => reply (by simp only [stepReply, h]), fun h => reply (by simp only [stepReply, h]),
      fun _ h => reply (by simp only [stepReply, h]), seq_ne_idle_of_step hr ht⟩
  · intro s ctx h
    simp only [perform, performStep, h]

/-- R117: what `start(a)` launches from reset, for a host that does its duty. -/
theorem launched_start_resetWith {p : Params} {host : Nat → Line} (hh : HostAnswers p host)
    (d : ResetDraw) (image : Memory) (a : Word) :
    Launched
      { entry := a
        image := image
        gr := (List.finRange 8).map fun i => (i, d.gr[i])
        o := some d.flags.o
        s := some d.flags.s
        z := some d.flags.z
        params := p } host ((State.resetWith p d image).start a) where
  entry := rfl
  ready := rfl
  cause := rfl
  inFlight := rfl
  memory := rfl
  registers e he := by
    obtain ⟨i, -, rfl⟩ := List.mem_map.1 he
    rfl
  overflow _ hb := Option.mem_some.1 hb
  sign _ hb := Option.mem_some.1 hb
  zero _ hb := Option.mem_some.1 hb
  params := rfl
  answers := hh

/-- Settles O53: reset is IDLE, and `start(a)` from there is `launched_start_resetWith`. -/
theorem resetIsIdleUntilStart : Obligations.ResetIsIdleUntilStart := fun p d image a =>
  ⟨rfl, rfl, rfl, rfl, rfl, rfl, step_of_stopped (.inl rfl), (State.resetWith p d image).start a, rfl,
    rfl, rfl, rfl, fun _ hh => launched_start_resetWith hh d image a⟩

end Sys2Proof.Machine
end

section
/-! PROOF. Runs of the machine, with queued answers and with a host that answers (spec 40_sequencer.md
R57, R58; 44_syscall_halt.md R90, R92; 70_reset_and_hazards.md R117). -/

namespace Sys2Proof.Machine

/-! ### `run()` is repeated stepping -/

theorem Seq.stopped_of_not_running {q : Seq} (h : q.running = false) :
    q = .idle ∨ q = .halted ∨ q = .faulted := by
  cases q with
  | idle | halted | faulted => simp
  | ready | waitInput => cases h

/-- R58: a unit that is stopped is left by every run. -/
theorem runFor_of_stopped {s : State} (h : s.seq = .idle ∨ s.seq = .halted ∨ s.seq = .faulted)
    (k : Nat) : runFor k s = .next s := by
  cases k with
  | zero => rfl
  | succ k => rcases h with h | h | h <;> simp [runFor, h, Seq.running]

/-- R57: one step, then the rest of the run, whether or not the unit is running. -/
theorem runFor_succ (k : Nat) (s : State) : runFor (k + 1) s = andThen (step s) (runFor k) := by
  cases hq : s.seq.running with
  | true => rw [runFor, if_pos hq]
  | false =>
    have hs := Seq.stopped_of_not_running hq
    rw [runFor_of_stopped hs, step_of_stopped hs, andThen_next, runFor_of_stopped hs]

/-- R57: `run()` followed for `k` steps is `k` steps of the machine. -/
theorem runFor_eq_run (k : Nat) (s : State) : runFor k s = core.run k s := by
  induction k generalizing s with
  | zero => rfl
  | succ k ih =>
    rw [runFor_succ]
    cases h : step s with
    | next t => exact (ih t).trans (run_of_next h k).symm
    | fault f => exact (run_of_fault h k).symm
    | refused q => exact (run_of_refused h k).symm

/-! ### The answers of a host, queued -/

/-- The answers of a host to `k` requests from request `n` on. -/
def answersFrom (host : Nat → Line) (n k : Nat) : List Line := (List.range' n k).map host

theorem answersFrom_succ (host : Nat → Line) (n k : Nat) :
    answersFrom host n (k + 1) = host n :: answersFrom host (n + 1) k := by
  rw [answersFrom, List.range'_succ, List.map_cons, answersFrom]

theorem answersFrom_succ_last (host : Nat → Line) (n k : Nat) :
    answersFrom host n (k + 1) = answersFrom host n k ++ [host (n + k)] := by
  rw [answersFrom, List.range'_1_concat, List.map_append, answersFrom]
  rfl

/-- The outcome with another queue of answers. -/
def withQueue (l : List Line) (o : Host.Outcome State Fault Refusal) :
    Host.Outcome State Fault Refusal :=
  andThen o fun t => .next (t.queue l)

/-- R87, R90: a step that takes its line from the queue is the delivery of that line. -/
theorem step_queue_of_wait {s : State} {ctx : PendingInput} (h : s.seq = .waitInput ctx)
    (line : Line) (l : List Line) :
    step (s.queue (line :: l)) = withQueue l (deliverLine ctx line s) := by
  have hs : step (s.queue (line :: l)) = deliverLine ctx line (s.queue l) :=
    step_of_waitInput (s := s.queue (line :: l)) h
  rw [hs]
  unfold deliverLine
  cases encodeLine s.params line with
  | none => rfl
  | some codes => exact congrArg Host.Outcome.next (State.completeInput_queue s ctx codes l)

/-- R57, R90: a run with a host is the run with at least as many of its answers queued as it has
actions, up to the answers left. -/
theorem runFor_queue_answersFrom (host : Nat → Line) (k n : Nat) (s : State) (more : List Line) :
    ∃ rest, runFor k (s.queue (answersFrom host n k ++ more)) =
      withQueue rest (runWith host k n s) := by
  induction k generalizing n s more with
  | zero => exact ⟨_, rfl⟩
  | succ k ih =>
    have stopped (hq : s.seq = .idle ∨ s.seq = .halted ∨ s.seq = .faulted) :
        ∃ rest, runFor (k + 1) (s.queue (answersFrom host n (k + 1) ++ more)) =
          withQueue rest (runWith host (k + 1) n s) := by
      rw [runWith_stopped hq]
      exact ⟨_, runFor_of_stopped (s := s.queue (answersFrom host n (k + 1) ++ more)) hq (k + 1)⟩
    cases hq : s.seq with
    | idle => exact stopped (.inl hq)
    | halted => exact stopped (.inr (.inl hq))
    | faulted => exact stopped (.inr (.inr hq))
    | ready =>
      obtain ⟨t, ht, -, hqueue⟩ := step_ready hq
      rw [runFor_succ, hqueue, runWith_ready hq, ht, andThen_next, andThen_next, answersFrom_succ_last,
        List.append_assoc]
      exact ih n t _
    | waitInput ctx =>
      rw [runFor_succ, answersFrom_succ, List.cons_append, step_queue_of_wait hq, runWith_wait hq]
      cases deliverLine ctx (host n) s with
      | next t => exact ih (n + 1) t more
      | fault | refused => exact ⟨[], rfl⟩

/-- Settles O58: `runFor_eq_run` and `runFor_queue_answersFrom`. -/
theorem runIsRepeatedStepping : Obligations.RunIsRepeatedStepping := by
  refine ⟨runFor_eq_run, fun host k s => ?_⟩
  obtain ⟨rest, h⟩ := runFor_queue_answersFrom host k 0 s []
  rw [List.append_nil, answersFrom, ← List.range_eq_range', runFor_eq_run] at h
  constructor
  · intro t ht
    exact ⟨rest, by rw [h, ht]; rfl⟩
  · intro f hf
    rw [h, hf]
    rfl

/-! ### Runs that end -/

theorem runFor_add (j k : Nat) (s : State) :
    runFor (j + k) s = andThen (runFor j s) (runFor k) := by
  induction j generalizing s with
  | zero =>
    rw [Nat.zero_add]
    rfl
  | succ j ih =>
    rw [Nat.succ_add, runFor_succ, runFor_succ]
    cases step s with
    | next t => exact ih t
    | fault | refused => rfl

theorem ended.stopped {t : State} (h : ended t) :
    t.seq = .idle ∨ t.seq = .halted ∨ t.seq = .faulted :=
  .inr h

/-- R58: once ended, a run stays where it is. -/
theorem runFor_of_ended_add {s t : State} {j : Nat} (h : runFor j s = .next t) (ht : ended t)
    (k : Nat) : runFor (j + k) s = .next t := by
  rw [runFor_add, h, andThen_next, runFor_of_stopped ht.stopped]

/-- Settles O59: two ends are compared at the sum of their steps (`runFor_of_ended_add`). -/
theorem runsEndInOneState : Obligations.RunsEndInOneState := by
  rintro s t u ⟨j, hj, ht⟩ ⟨k, hk, hu⟩
  have hjk := runFor_of_ended_add hj ht k
  rw [Nat.add_comm, runFor_of_ended_add hk hu j] at hjk
  cases hjk
  exact ⟨rfl, ht, run_of_step_self (step_of_stopped ht.stopped)⟩

theorem runWith_of_ended_add {host : Nat → Line} {n j : Nat} {s t : State}
    (h : runWith host j n s = .next t) (ht : ended t) (k : Nat) :
    runWith host (j + k) n s = .next t := by
  obtain ⟨m, hm⟩ := runWith_add h
  rw [hm, runWith_stopped ht.stopped]

/-- R58: with one host a run ends in one state. -/
theorem runWith_ended_unique {host : Nat → Line} {n j k : Nat} {s t u : State}
    (hj : runWith host j n s = .next t) (hk : runWith host k n s = .next u) (ht : ended t)
    (hu : ended u) : t = u := by
  have hjk := runWith_of_ended_add hj ht k
  rw [Nat.add_comm, runWith_of_ended_add hk hu j] at hjk
  cases hjk
  rfl

/-! ### Launched runs -/

theorem State.completeInput_params (s : State) (ctx : PendingInput) (codes : List Word) :
    (s.completeInput ctx codes).params = s.params := by
  rw [State.completeInput_eq]

/-- R92: a host that does its duty gives a line that completes the waiting SVC. -/
theorem deliverLine_of_duty {host : Nat → Line} {s : State} (hh : HostAnswers s.params host)
    (ctx : PendingInput) (n : Nat) :
    ∃ t, deliverLine ctx (host n) s = .next t ∧ t.seq = .ready ∧ t.params = s.params := by
  obtain ⟨codes, hc⟩ := Option.isSome_iff_exists.1 (hh n)
  exact ⟨_, deliverLine_of_codes hc, rfl, s.completeInput_params ctx codes⟩

/-- R92, R117: with such a host no run stops, and the parameters are kept. -/
theorem runWith_of_duty {host : Nat → Line} {p : Params} (hh : HostAnswers p host) (k n : Nat)
    {s : State} (hp : s.params = p) : ∃ t, runWith host k n s = .next t ∧ t.params = p := by
  induction k generalizing n s with
  | zero => exact ⟨s, rfl, hp⟩
  | succ k ih =>
    have stopped (hq : s.seq = .idle ∨ s.seq = .halted ∨ s.seq = .faulted) :
        ∃ t, runWith host (k + 1) n s = .next t ∧ t.params = p :=
      ⟨s, runWith_stopped hq (k + 1) n, hp⟩
    cases hq : s.seq with
    | idle => exact stopped (.inl hq)
    | halted => exact stopped (.inr (.inl hq))
    | faulted => exact stopped (.inr (.inr hq))
    | ready =>
      obtain ⟨t, ht, htp, -⟩ := step_ready hq
      rw [runWith_ready hq, ht]
      exact ih n (htp.trans hp)
    | waitInput ctx =>
      obtain ⟨t, ht, -, htp⟩ := deliverLine_of_duty (hp ▸ hh) ctx n
      rw [runWith_wait hq, ht]
      exact ih (n + 1) (htp.trans hp)

/-- R90, R92: with such a host a wait is over one action later. -/
theorem runWith_wait_over {host : Nat → Line} {k n : Nat} {s t : State} {ctx : PendingInput}
    (h : runWith host k n s = .next t) (hq : t.seq = .waitInput ctx)
    (hh : HostAnswers t.params host) :
    ∃ u, runWith host (k + 1) n s = .next u ∧ u.seq = .ready := by
  obtain ⟨m, hm⟩ := runWith_add h
  obtain ⟨u, hu, hr, -⟩ := deliverLine_of_duty hh ctx m
  refine ⟨u, ?_, hr⟩
  rw [hm, runWith_wait hq, hu]
  rfl

/-- R57, R58: a run that never stops ends HALTED, ends FAULTED, or goes on for ever. -/
theorem ends_or_never {host : Nat → Line} {s : State}
    (h : ∀ k, ∃ t, runWith host k 0 s = .next t) :
    (∃ t, EndsNormally host s t) ∨ (∃ t, EndsFaulted host s t) ∨ NeverEnds host s := by
  by_cases he : ∃ k t, runWith host k 0 s = .next t ∧ ended t
  · obtain ⟨k, t, hk, ht | ht⟩ := he
    · exact .inl ⟨t, k, hk, ht⟩
    · exact .inr (.inl ⟨t, k, hk, ht⟩)
  · refine .inr (.inr fun k => ?_)
    obtain ⟨t, ht⟩ := h k
    exact ⟨t, ht, fun hend => he ⟨k, t, ht, hend⟩⟩

theorem EndsNormally.unique {host : Nat → Line} {s t u : State} (ht : EndsNormally host s t)
    (hu : EndsNormally host s u) : t = u := by
  obtain ⟨j, hj, htq⟩ := ht
  obtain ⟨k, hk, huq⟩ := hu
  exact runWith_ended_unique hj hk (.inl htq) (.inl huq)

theorem EndsNormally.not_endsFaulted {host : Nat → Line} {s t u : State}
    (ht : EndsNormally host s t) : ¬EndsFaulted host s u := by
  rintro ⟨k, hk, huq⟩
  obtain ⟨j, hj, htq⟩ := ht
  cases runWith_ended_unique hj hk (.inl htq) (.inr huq)
  cases htq.symm.trans huq

theorem EndsNormally.not_neverEnds {host : Nat → Line} {s t : State} (ht : EndsNormally host s t) :
    ¬NeverEnds host s := by
  intro h
  obtain ⟨j, hj, htq⟩ := ht
  obtain ⟨u, hu, hne⟩ := h j
  cases hj.symm.trans hu
  exact hne (.inl htq)

/-- Settles O60: the host's duty keeps the run going (`runWith_of_duty`, `runWith_wait_over`), its ways
to end are `ends_or_never`, and a normal end rules out the others. -/
theorem launchedRunsEndInOneWay : Obligations.LaunchedRunsEndInOneWay := by
  intro c host s hl
  have hgo (k : Nat) : ∃ t, runWith host k 0 s = .next t ∧ t.params = c.params :=
    runWith_of_duty (hl.params ▸ hl.answers) k 0 hl.params
  refine ⟨hgo, fun k t ctx ht hq => ?_, ends_or_never fun k => ?_, fun t u => EndsNormally.unique,
    fun post hclaim => ?_⟩
  · obtain ⟨u, hu, hp⟩ := hgo k
    cases hu.symm.trans ht
    exact runWith_wait_over ht hq (hp ▸ hl.params ▸ hl.answers)
  · obtain ⟨t, ht, -⟩ := hgo k
    exact ⟨t, ht⟩
  · obtain ⟨t, ht, -⟩ := hclaim host s hl
    exact ⟨fun _ => ht.not_endsFaulted, ht.not_neverEnds⟩

end Sys2Proof.Machine
end
